-- ==== Sys2Proof/Config.lean ====
section
/-! DEFINITION. The implementation parameters of GF2INV (spec/00_scope.md rule R5). Every one has a fixed value ("None
is left open as a model argument"), and the spec leaves no observable value free ("nothing observable is `any value`",
spec/93_implementation_defined.md), so there is no opaque constant here. The types of Word.lean carry the same numbers
as numerals. -/

namespace Sys2Proof.Config

/-- `N`, the matrix dimension and the width in bits of one matrix row word (R5). -/
abbrev N : Nat := 32

/-- `TSIZE`, the entries in one substitution table (R5). -/
abbrev TSIZE : Nat := 256

/-- The width in bits of the command word `cw`, the operand word `wd` and the response data `rdata` (R5, R70). -/
abbrev wordWidth : Nat := 32

/-- The width in bits of a table entry, a table index and a preimage (R5, R130). -/
abbrev byteWidth : Nat := 8

end Sys2Proof.Config
end

