-- ==== Sys2Proof/Word.lean ====
section
/-! DEFINITION. The word types. Bit 0 is the least significant bit of every word (spec/00_scope.md rule R7). -/

namespace Sys2Proof

/-- A command word, an operand word, a response data word or a matrix row (R5, R70). -/
abbrev Word := BitVec 32

/-- A table entry, a table index, a preimage or a list position (R130). -/
abbrev Byte := BitVec 8

/-- A matrix over GF(2) of dimension `n`: `n` words of `n` bits, row 0 first; the entry in row `i`, column `j` is bit
`j` (weight 2^j) of word `i` (R8). The block uses `n = 32`; the pure functions are written for any `n` (R5). -/
abbrev BitMatrix (n : Nat) := Vector (BitVec n) n

/-- A matrix row index, 0 to 31 (R21, R22). -/
abbrev Row := Fin 32

/-- One substitution table: 256 bytes indexed by a byte (R25). -/
abbrev Table := Vector Byte 256

/-- One inverse relation: for each of the 256 bytes an ordered list of bytes (R27). -/
abbrev Relation := Vector (List Byte) 256

end Sys2Proof
end

