-- ==== Sys2Proof/Syntax.lean ====
section
/-! DEFINITION. The commands of the block, the raw command a host presents, and the assembler's lines
(spec/30_encoding.md rules R70, R75, R83, R84). -/

namespace Sys2Proof

/-- The two table banks: bank 0 is the even table, bank 1 the odd table (R5, R25, R72). -/
inductive Bank where
  | even
  | odd
deriving DecidableEq, Repr

/-- The twelve commands, one constructor per row of spec/opcode_table.json (R75). MWR carries its operand word `wd`,
the only command that reads it (R82); every other command has its operands in the command word alone. -/
inductive Instr where
  | nop                                  -- R160
  | stat                                 -- R161
  | rst                                  -- R162
  | mwr (r : Row) (wd : Word)            -- R110
  | mrd (r : Row)                        -- R111
  | minv                                 -- R112
  | ird (r : Row)                        -- R113
  | twr (b : Bank) (x : Byte) (v : Byte) -- R137
  | trd (b : Bank) (x : Byte)            -- R138
  | tbld (b : Bank)                      -- R139
  | cls (b : Bank) (y : Byte)            -- R141
  | prd (b : Bank) (y : Byte) (k : Byte) -- R142
deriving DecidableEq, Repr

/-- A command as the host presents it on the port: the pair `(cw, wd)` (R70). -/
structure Command where
  cw : Word
  wd : Word
deriving DecidableEq, Repr

/-- One line of the assembler (R83), the raw words `.word` and the four pseudo-instructions (R84) included. Numbers
are as written, so a line may be out of range; `Asm.wellFormed` says which the assembler accepts. -/
inductive Asm where
  | nop
  | stat
  | rst
  | mwr (n w : Nat)
  | mrd (n : Nat)
  | minv
  | ird (n : Nat)
  | twr (b : Bank) (x v : Nat)
  | trd (b : Bank) (x : Nat)
  | tbld (b : Bank)
  | cls (b : Bank) (y : Nat)
  | prd (b : Bank) (y k : Nat)
  | word (cw wd : Nat)
  | mload (ws : List Nat)
  | tload (b : Bank) (vs : List Nat)
  | invert (ws : List Nat)
  | build (b : Bank) (vs : List Nat)
deriving DecidableEq, Repr

end Sys2Proof
end

