-- ==== Sys2Proof/WellFormed.lean ====
section
/-! DEFINITION. Which command words are legal (spec/30_encoding.md rules R75 and R77) and which assembler lines the
assembler accepts (R83). An `Instr` needs no check of its own: its operands are a `Row` (0 to 31), a `Bank` and bytes,
so every term of the type is a command of the block. -/

namespace Sys2Proof

/-- One row of the opcode map: `cw` is this command exactly when `cw &&& mask = pattern` (R75). -/
structure OpcodeRow where
  mnemonic : String
  mask : Word
  pattern : Word
deriving DecidableEq, Repr

/-- The opcode map, row by row as R75 prints it. -/
def opcodeMap : List OpcodeRow :=
  [ ⟨"NOP",  0xFFFFFFFF#32, 0x00000000#32⟩,
    ⟨"STAT", 0xFFFFFFFF#32, 0x01000000#32⟩,
    ⟨"RST",  0xFFFFFFFF#32, 0x02000000#32⟩,
    ⟨"MWR",  0xFFFFE0FF#32, 0x10000000#32⟩,
    ⟨"MRD",  0xFFFFE0FF#32, 0x11000000#32⟩,
    ⟨"MINV", 0xFFFFFFFF#32, 0x12000000#32⟩,
    ⟨"IRD",  0xFFFFE0FF#32, 0x13000000#32⟩,
    ⟨"TWR",  0xFFFE0000#32, 0x20000000#32⟩,
    ⟨"TRD",  0xFFFE00FF#32, 0x21000000#32⟩,
    ⟨"TBLD", 0xFFFEFFFF#32, 0x22000000#32⟩,
    ⟨"CLS",  0xFFFE00FF#32, 0x23000000#32⟩,
    ⟨"PRD",  0xFFFE0000#32, 0x24000000#32⟩ ]

/-- The command word matches this row (R75). -/
def OpcodeRow.matches (row : OpcodeRow) (cw : Word) : Bool := cw &&& row.mask == row.pattern

/-- A command word is legal when it matches a row of the opcode map, and illegal otherwise (R77). -/
def legalWord (cw : Word) : Bool := opcodeMap.any (·.matches cw)

/-- The mnemonic of a command, as spec/opcode_table.json spells it. -/
def Instr.mnemonic : Instr → String
  | .nop => "NOP"
  | .stat => "STAT"
  | .rst => "RST"
  | .mwr _ _ => "MWR"
  | .mrd _ => "MRD"
  | .minv => "MINV"
  | .ird _ => "IRD"
  | .twr _ _ _ => "TWR"
  | .trd _ _ => "TRD"
  | .tbld _ => "TBLD"
  | .cls _ _ => "CLS"
  | .prd _ _ _ => "PRD"

/-- A matrix row number as the assembler writes it: `0 <= n <= 31` (R83). -/
def rowInRange (n : Nat) : Bool := decide (n < Config.N)

/-- A byte as the assembler writes it: 0 to 255 (R83). -/
def byteInRange (n : Nat) : Bool := decide (n < 2 ^ Config.byteWidth)

/-- A 32-bit number (R83). -/
def wordInRange (n : Nat) : Bool := decide (n < 2 ^ Config.wordWidth)

/-- The 32 rows of `mload` and `invert` (R84). -/
def rowsWellFormed (ws : List Nat) : Bool := decide (ws.length = Config.N) && ws.all wordInRange

/-- The 256 entries of `tload` and `build` (R84). -/
def entriesWellFormed (vs : List Nat) : Bool := decide (vs.length = Config.TSIZE) && vs.all byteInRange

/-- "An assembler refuses an operand out of its range" (R83): the lines it accepts. -/
def Asm.wellFormed : Asm → Bool
  | .nop | .stat | .rst | .minv | .tbld _ => true
  | .mwr n w => rowInRange n && wordInRange w
  | .mrd n | .ird n => rowInRange n
  | .twr _ x v => byteInRange x && byteInRange v
  | .trd _ x => byteInRange x
  | .cls _ y => byteInRange y
  | .prd _ y k => byteInRange y && byteInRange k
  | .word cw wd => wordInRange cw && wordInRange wd
  | .mload ws | .invert ws => rowsWellFormed ws
  | .tload _ vs | .build _ vs => entriesWellFormed vs

end Sys2Proof
end

