-- ==== Sys2Proof/Decode.lean ====
section
/-! DEFINITION. The command word's fields, the decoder and the encoder (spec/30_encoding.md rules R72, R73, R75, R77,
R81, R83). -/

namespace Sys2Proof

/-! The fields of the command word (R72). -/

/-- `op`, bits 31:24. -/
def opField (cw : Word) : BitVec 8 := cw.extractLsb' 24 8

/-- `z`, bits 23:17; zero in every command. -/
def zField (cw : Word) : BitVec 7 := cw.extractLsb' 17 7

/-- `b`, bit 16. -/
def bField (cw : Word) : BitVec 1 := cw.extractLsb' 16 1

/-- `idx`, bits 15:8. -/
def idxField (cw : Word) : Byte := cw.extractLsb' 8 8

/-- `imm8`, bits 7:0. -/
def immField (cw : Word) : Byte := cw.extractLsb' 0 8

/-- The bank a bit names: 0 is the even table, 1 the odd table (R72). -/
def bankOfBit (b : BitVec 1) : Bank := if b = 1#1 then .odd else .even

/-- The bit that names a bank (R72). -/
def bitOfBank : Bank → BitVec 1
  | .even => 0#1
  | .odd => 1#1

/-- Why a command word is illegal: the three cases of R77. The name is the model's; every illegal word is answered
alike. -/
inductive IllegalCause where
  | unassignedOp   -- (a) `cw.op` is unassigned
  | nonzeroZ       -- (b) `cw.z != 0`
  | nonzeroField   -- (c) a must-be-zero field is not zero, or a matrix row index is 32 or more
deriving DecidableEq, Repr

/-- Format Z, no operand: `b`, `idx` and `imm8` must be zero (R72). -/
def decodeZ (cw : Word) (i : Instr) : Except IllegalCause Instr :=
  if bField cw = 0 ∧ idxField cw = 0 ∧ immField cw = 0 then .ok i else .error .nonzeroField

/-- Format R, a matrix row: `b` and `imm8` must be zero, and `idx < 32`, that is `idx[7:5] = 0` (R72, R73). -/
def decodeR (cw : Word) (f : Row → Instr) : Except IllegalCause Instr :=
  if h : (idxField cw).toNat < 32 then
    if bField cw = 0 ∧ immField cw = 0 then .ok (f ⟨(idxField cw).toNat, h⟩) else .error .nonzeroField
  else .error .nonzeroField

/-- Format B, a bank: `idx` and `imm8` must be zero (R72). -/
def decodeB (cw : Word) (f : Bank → Instr) : Except IllegalCause Instr :=
  if idxField cw = 0 ∧ immField cw = 0 then .ok (f (bankOfBit (bField cw))) else .error .nonzeroField

/-- Format X, a bank and a byte index: `imm8` must be zero (R72). -/
def decodeX (cw : Word) (f : Bank → Byte → Instr) : Except IllegalCause Instr :=
  if immField cw = 0 then .ok (f (bankOfBit (bField cw)) (idxField cw)) else .error .nonzeroField

/-- Format XI, a bank, a byte index and an immediate byte: nothing more must be zero (R72). -/
def decodeXI (cw : Word) (f : Bank → Byte → Byte → Instr) : Except IllegalCause Instr :=
  .ok (f (bankOfBit (bField cw)) (idxField cw) (immField cw))

/-- The decoder, total on all command words (R81). The operand word is used by MWR only (R82). -/
def decode (cw wd : Word) : Except IllegalCause Instr :=
  if zField cw ≠ 0 then .error .nonzeroZ
  else if opField cw = 0x00#8 then decodeZ cw .nop
  else if opField cw = 0x01#8 then decodeZ cw .stat
  else if opField cw = 0x02#8 then decodeZ cw .rst
  else if opField cw = 0x10#8 then decodeR cw (fun r => .mwr r wd)
  else if opField cw = 0x11#8 then decodeR cw .mrd
  else if opField cw = 0x12#8 then decodeZ cw .minv
  else if opField cw = 0x13#8 then decodeR cw .ird
  else if opField cw = 0x20#8 then decodeXI cw .twr
  else if opField cw = 0x21#8 then decodeX cw .trd
  else if opField cw = 0x22#8 then decodeB cw .tbld
  else if opField cw = 0x23#8 then decodeX cw .cls
  else if opField cw = 0x24#8 then decodeXI cw .prd
  else .error .unassignedOp

/-! The encoder. -/

/-- A command word put together from its fields, with `z = 0` (R72). -/
def packWord (op : BitVec 8) (b : BitVec 1) (idx imm : Byte) : Word := op ++ 0#7 ++ b ++ idx ++ imm

/-- A matrix row number in the `idx` field (R73). -/
def idxOfRow (r : Row) : Byte := BitVec.ofNat 8 r.val

/-- The command word of a command (R75, R83). -/
def encodeWord : Instr → Word
  | .nop => packWord 0x00#8 0 0 0
  | .stat => packWord 0x01#8 0 0 0
  | .rst => packWord 0x02#8 0 0 0
  | .mwr r _ => packWord 0x10#8 0 (idxOfRow r) 0
  | .mrd r => packWord 0x11#8 0 (idxOfRow r) 0
  | .minv => packWord 0x12#8 0 0 0
  | .ird r => packWord 0x13#8 0 (idxOfRow r) 0
  | .twr b x v => packWord 0x20#8 (bitOfBank b) x v
  | .trd b x => packWord 0x21#8 (bitOfBank b) x 0
  | .tbld b => packWord 0x22#8 (bitOfBank b) 0 0
  | .cls b y => packWord 0x23#8 (bitOfBank b) y 0
  | .prd b y k => packWord 0x24#8 (bitOfBank b) y k

/-- The operand word of a command: the row of MWR; the assembler emits 0 with every other command (R83). -/
def encodeOperand : Instr → Word
  | .mwr _ wd => wd
  | .nop | .stat | .rst | .mrd _ | .minv | .ird _ => 0
  | .twr _ _ _ | .trd _ _ | .tbld _ | .cls _ _ | .prd _ _ _ => 0

/-- The words of a command (R70, R83). -/
def encode (i : Instr) : Command := ⟨encodeWord i, encodeOperand i⟩

/-- The command whose bits are `w`, the command word in bits 31:0 and the operand word in bits 63:32, with every bit
at `nbits` or above taken as 0. -/
def commandOfBits (nbits w : Nat) : Command :=
  ⟨BitVec.ofNat 32 (w % 2 ^ nbits), BitVec.ofNat 32 (w % 2 ^ nbits / 2 ^ 32)⟩

/-- What the decoder reads from the words of a row of spec/opcode_table.json; `none` where the word is illegal. -/
def decodeTableWord (nbits w : Nat) : Option Instr :=
  match decode (commandOfBits nbits w).cw (commandOfBits nbits w).wd with
  | .ok i => some i
  | .error _ => none

end Sys2Proof
end

