-- ==== Sys2Proof/Machine/State.lean ====
section
/-! DEFINITION. The state of GF2INV (spec/10_state.md rule R20), its values after reset (R34), and the ports by which
the host reaches it (spec/30_encoding.md rule R70). The block never faults and never refuses a command: every command
word, legal or not, is answered with one response (R71, R77), so `Fault` has no constructor and `Refusal` only the one
for a command without a meaning. -/

namespace Sys2Proof.Machine

/-- The state of the inverse, a 2-bit field with three legal values (R23). -/
inductive IStat where
  | NONE      -- 0: no inversion since the last write to `M` or since reset
  | VALID     -- 1: `INV` is the inverse of `M`
  | SINGULAR  -- 2: the last MINV failed
deriving DecidableEq, Repr

/-- The response codes that the block produces (R74). -/
inductive RCode where
  | OK            -- 0
  | ERR_ILLEGAL   -- 1
  | ERR_SINGULAR  -- 2
  | ERR_NOTREADY  -- 3
  | ERR_RANGE     -- 4
deriving DecidableEq, Repr

/-- The answer to one command: `rcode` and `rdata` (R70). -/
structure Response where
  rcode : RCode
  rdata : Word
deriving DecidableEq, Repr

/-- What the host can do to the block: present a command on the port (R70), or drive `rst_n` low (R200), between
commands (`reset none`) or while a command is executing (`reset (some c)`, which discards the command `c`, R201). -/
inductive HostEvent where
  | command (c : Command)
  | reset (inFlight : Option Command)
deriving DecidableEq, Repr

/-- One value for each of the two table banks (R25, R27, R28). -/
structure PerBank (α : Type) where
  even : α
  odd : α
deriving DecidableEq, Repr

/-- The state. The first seven fields are "the complete state of the block ... and nothing else" (R20), under the
spec's own names. The last two are the model's: the ports seen at transaction level (R70), which the spec gives to a
step as its parameters (R32) and which stand in the state because a step has no other argument (log entry 1). -/
structure State where
  /-- `M[0..31]`, the source matrix (R21). -/
  M : BitMatrix 32
  /-- `INV[0..31]`, the inverse matrix, readable only while `ISTAT = VALID` (R22). -/
  INV : BitMatrix 32
  /-- The state of the inverse (R23). -/
  ISTAT : IStat
  /-- The column at which the last inversion failed; 0 unless `ISTAT = SINGULAR` (R24). -/
  FCOL : BitVec 5
  /-- `T[0..1][0..255]`, the two substitution tables (R25). -/
  T : PerBank Table
  /-- `IR[0..1][0..255]`, the inverse relation of each bank, readable only while `TBUILT[b] = 1` (R27). -/
  IR : PerBank Relation
  /-- `TBUILT[0..1]`: `IR[b]` is the inverse relation of the present `T[b]` (R28). -/
  TBUILT : PerBank Bool
  /-- What the host has still to present, in the order in which it presents it (R71). -/
  host : List HostEvent
  /-- The response on the port after the last step: `none` while `rsp_valid` is 0 (R70). -/
  rsp : Option Response
deriving DecidableEq, Repr

/-- The reasons to stop with a fault: none. "Nothing in the block is `stuck` (the block never halts ...)"
(spec/93_implementation_defined.md). -/
inductive Fault where
deriving DecidableEq, Repr

/-- The reasons to refuse an instruction. -/
inductive Refusal where
  /-- The instruction has no meaning in this model. Raised by an arm of `exec` that is rejected by name; no arm is.
  Safe: the machine stops. -/
  | notModelled (mnemonic : String)
deriving DecidableEq, Repr

/-- The zero matrix (R34). -/
def zeroMatrix : BitMatrix 32 := Vector.replicate 32 0

/-- The table with all entries zero (R34). -/
def zeroTable : Table := Vector.replicate 256 0

/-- `[0, 1, ..., 255]`: every byte, in increasing order. -/
def allBytes : List Byte := (List.range 256).map (BitVec.ofNat 8)

/-- The relation after reset: the list of byte 0 is `[0, 1, ..., 255]`, every other list is empty (R27, R34). -/
def resetRelation : Relation := (Vector.replicate 256 []).set 0 allBytes

/-- The machine right after reset: "No value is unspecified" (R34), the block is idle and no response is pending
(R200). The host has presented nothing yet. -/
def State.reset : State where
  M := zeroMatrix
  INV := zeroMatrix
  ISTAT := .NONE
  FCOL := 0
  T := ⟨zeroTable, zeroTable⟩
  IR := ⟨resetRelation, resetRelation⟩
  TBUILT := ⟨false, false⟩
  host := []
  rsp := none

end Sys2Proof.Machine
end

