-- ==== Sys2Proof/Machine/Relation.lean ====
section
/-! DEFINITION. The pure functions of the S-box inverse classifier (spec/41_sbox_classifier.md rules R130 to R133) and
the packed layout of an inverse relation (spec/10_state.md rule R29). -/

namespace Sys2Proof.Machine

/-- `t[x]`: the entry of a table (R25). -/
def tableAt (t : Table) (x : Byte) : Byte := t[x.toNat]'x.isLt

/-- The table with entry `x` replaced (R137). -/
def tableSet (t : Table) (x v : Byte) : Table := t.set x.toNat v x.isLt

/-- `pre[y]`: the ordered list of preimages of a byte (R27). -/
def listAt (pre : Relation) (y : Byte) : List Byte := pre[y.toNat]'y.isLt

/-- `pre[y] <- pre[y] ++ [x]` (R131). -/
def appendAt (pre : Relation) (y x : Byte) : Relation := pre.set y.toNat (listAt pre y ++ [x]) y.isLt

/-- The relation whose lists are all empty (R131). -/
def emptyRelation : Relation := Vector.replicate 256 []

/-- `build_inverse(t)`: for `x` from 0 to 255, append `x` to the list of `t[x]` (R131). -/
def buildInverse (t : Table) : Relation := allBytes.foldl (fun pre x => appendAt pre (tableAt t x) x) emptyRelation

/-- The three classes of an output byte (R133). -/
inductive ByteClass where
  | DeadEnd
  | Forced (x : Byte)
  | Branching (xs : List Byte)
deriving DecidableEq, Repr

/-- The class of a preimage list by its length: 0, 1, or 2 and more (R133). -/
def classOfList : List Byte → ByteClass
  | [] => .DeadEnd
  | [x] => .Forced x
  | x :: x' :: xs => .Branching (x :: x' :: xs)

/-- `classify(pre, y)` (R133). -/
def classify (pre : Relation) (y : Byte) : ByteClass := classOfList (listAt pre y)

/-! The packed layout (R29). It is a view of the lists, which no command exposes. -/

/-- `CNT[y]`: the length of the list of `y`, 0 to 256. -/
def packedCnt (pre : Relation) (y : Byte) : Nat := (listAt pre y).length

/-- `OFF[y]`: the sum of `CNT[y']` for `y' < y`. -/
def packedOff (pre : Relation) (y : Byte) : Nat := ((allBytes.take y.toNat).map (packedCnt pre)).sum

/-- `PRE`: the lists one after another, in increasing `y`. -/
def packedPre (pre : Relation) : List Byte := allBytes.flatMap (listAt pre)

end Sys2Proof.Machine
end

