-- ==== Sys2Proof/Machine/Operands.lean ====
section
/-! DEFINITION. How the elements of the storage spaces are named by a command's operands, and how results are laid out
in the response data (spec/20_memory.md rules R50, R53; spec/30_encoding.md rules R73, R74; spec/41_sbox_classifier.md
rule R134). Direct addressing is the one addressing mode (R116, R144). -/

namespace Sys2Proof.Machine

/-- The value of one bank (R25, R27, R28). -/
def PerBank.get {α : Type} (p : PerBank α) : Bank → α
  | .even => p.even
  | .odd => p.odd

/-- One bank's value replaced; the other bank's stays. -/
def PerBank.set {α : Type} (p : PerBank α) (b : Bank) (v : α) : PerBank α :=
  match b with
  | .even => { p with even := v }
  | .odd => { p with odd := v }

/-! Reading and writing the four storage spaces (R50). -/

/-- Row `r` of the source matrix, `M[r]` (R21). -/
def State.rowM (s : State) (r : Row) : Word := s.M[r]

/-- `M[r] <- w` (R21). -/
def State.setRowM (s : State) (r : Row) (w : Word) : State := { s with M := s.M.set r w }

/-- Row `r` of the inverse matrix, `INV[r]` (R22). -/
def State.rowINV (s : State) (r : Row) : Word := s.INV[r]

/-- All rows of `INV` together (R22). -/
def State.setINV (s : State) (A : BitMatrix 32) : State := { s with INV := A }

/-- Entry `T[b][x]` (R25). -/
def State.entryT (s : State) (b : Bank) (x : Byte) : Byte := tableAt (s.T.get b) x

/-- `T[b][x] <- v` (R25). -/
def State.setEntryT (s : State) (b : Bank) (x v : Byte) : State :=
  { s with T := s.T.set b (tableSet (s.T.get b) x v) }

/-- The list `IR[b][y]` (R27). -/
def State.listIR (s : State) (b : Bank) (y : Byte) : List Byte := listAt (s.IR.get b) y

/-- All 256 lists of `IR[b]` together (R27). -/
def State.setIR (s : State) (b : Bank) (pre : Relation) : State := { s with IR := s.IR.set b pre }

/-! The response data (R73, R74). -/

/-- `zext_32` of a byte: the byte in bits 7:0, bits 31:8 zero (R53, R73). -/
def zextByte (x : Byte) : Word := x.setWidth 32

/-- `zext_32` of a column (R74). -/
def zextCol (c : BitVec 5) : Word := c.setWidth 32

/-- `zext_32` of a list's length, 0 to 256 (R74). -/
def zextLen (n : Nat) : Word := BitVec.ofNat 32 n

/-- A column index as the 5-bit field (R24). -/
def colField (c : Row) : BitVec 5 := BitVec.ofNat 5 c.val

/-- The class code of a preimage list: 0 DeadEnd, 1 Forced, 2 Branching; 3 is not produced (R134). -/
def classCode : List Byte → BitVec 2
  | [] => 0
  | [_] => 1
  | _ :: _ :: _ => 2

/-- The annotation word: class in bits 31:30, zero in 29:25, count in 24:16, the second preimage in 15:8 and the first
in 7:0, each 0 where the list has no such element (R134). -/
def annot (l : List Byte) : Word :=
  classCode l ++ 0#5 ++ BitVec.ofNat 9 l.length ++ l.getD 1 0 ++ l.getD 0 0

end Sys2Proof.Machine
end

