-- ==== Sys2Proof/Machine/Flags.lean ====
section
/-! DEFINITION. The status fields `ISTAT`, `FCOL` and `TBUILT[b]`, the block's only flags (spec/10_state.md rule R42):
what sets and clears them, their codes, and the STATUS word they make up (R30). There are no arithmetic condition
codes. -/

namespace Sys2Proof.Machine

/-- The 2-bit value of `ISTAT` (R23); 3 is never produced. -/
def IStat.code : IStat → BitVec 2
  | .NONE => 0
  | .VALID => 1
  | .SINGULAR => 2

/-- The 4-bit value of `rcode` (R74); 5 to 15 are never produced. -/
def RCode.code : RCode → BitVec 4
  | .OK => 0
  | .ERR_ILLEGAL => 1
  | .ERR_SINGULAR => 2
  | .ERR_NOTREADY => 3
  | .ERR_RANGE => 4

/-- `ISTAT <- NONE`, `FCOL <- 0`: any MWR invalidates the inverse (R23, R24, R110). -/
def State.clearInverse (s : State) : State := { s with ISTAT := .NONE, FCOL := 0 }

/-- `ISTAT <- VALID`, `FCOL <- 0` (R112). -/
def State.markValid (s : State) : State := { s with ISTAT := .VALID, FCOL := 0 }

/-- `ISTAT <- SINGULAR`, `FCOL <- c` (R112). -/
def State.markSingular (s : State) (c : Row) : State := { s with ISTAT := .SINGULAR, FCOL := colField c }

/-- `TBUILT[b] <- v`: set by TBLD, cleared by TWR (R28). -/
def State.setBuilt (s : State) (b : Bank) (v : Bool) : State := { s with TBUILT := s.TBUILT.set b v }

/-- `STATUS = {0[18:0], FCOL[4:0], 0[3:0], TBUILT[1], TBUILT[0], ISTAT[1:0]}`, a view of the status fields
(R30, R161). -/
def State.statusWord (s : State) : Word :=
  0#19 ++ s.FCOL ++ 0#4 ++ BitVec.ofBool s.TBUILT.odd ++ BitVec.ofBool s.TBUILT.even ++ s.ISTAT.code

end Sys2Proof.Machine
end

