-- ==== Sys2Proof/Machine/Ops.lean ====
section
/-! DEFINITION. The shared operations: answering a command (spec/00_scope.md rule R10 `respond`), the error response,
which is the block's only form of exception (R10 `raise`; spec/60_exceptions.md rules R170, R171), reset
(spec/70_reset_and_hazards.md rules R200 to R202), and the port (spec/30_encoding.md rules R70, R71). There is no
trap, so there is no return from one (R179, R180). -/

namespace Sys2Proof.Machine

/-- The three outcomes of a step of this machine. -/
abbrev Result := Host.Outcome State Fault Refusal

/-- The response is on the port (R70). -/
def State.withResponse (s : State) (code : RCode) (data : Word) : State := { s with rsp := some ⟨code, data⟩ }

/-- `respond(code, data)`: end the command; the state writes made before it take effect (R10). -/
def respond (code : RCode) (data : Word) (s : State) : Result := .next (s.withResponse code data)

/-- `raise E(info)`: end the command with the error response and with no write beyond those made before it (R10,
R171). It saves nothing, changes no mode and sends control nowhere (R179). -/
def raise (e : RCode) (info : Word) (s : State) : Result := respond e info s

/-- Every field of the block's state takes its reset value; the port is left alone (R34, R162). -/
def State.resetBlock (s : State) : State := { State.reset with host := s.host, rsp := s.rsp }

/-! The port. -/

/-- The block accepts the event at the head of the host's sequence: `rest` is what the host has still to present. -/
def State.accept (s : State) (rest : List HostEvent) : State := { s with host := rest }

/-- No command is presented: the block is idle and keeps all its state (R178, R187), and there is no response on the
port (log entry 3). -/
def idle (s : State) : Result := .next { s with rsp := none }

/-- A hardware reset: the block takes the state of R34, no response is pending, and a command that was executing gets
none (R200, R201). -/
def hardReset (s : State) : Result := .next { s.resetBlock with rsp := none }

/-- An illegal command word is answered `respond(ERR_ILLEGAL, 0)` and changes no state (R77). -/
def raiseIllegal (s : State) : Result := raise .ERR_ILLEGAL 0 s

/-- The host presents one more command, before everything it has still to present (R70). -/
def State.present (s : State) (c : Command) : State := { s with host := .command c :: s.host }

end Sys2Proof.Machine
end

