-- ==== Sys2Proof/Machine/Control.lean ====
section
/-! DEFINITION. The control commands NOP, STAT and RST (spec/42_status_control.md). -/

namespace Sys2Proof.Machine

/-- NOP: no state written (R160). -/
def execNop (s : State) : Result := respond .OK 0 s

/-- STAT: the STATUS word; reading it clears nothing (R161). -/
def execStat (s : State) : Result := respond .OK s.statusWord s

/-- RST: every field of the state takes its reset value, and the command is answered like any other (R162, R202). -/
def execRst (s : State) : Result := respond .OK 0 s.resetBlock

end Sys2Proof.Machine
end

