-- ==== Sys2Proof/Machine/Gf2.lean ====
section
/-! DEFINITION. Matrices over GF(2) and the function `gf2_invert` (spec/40_matrix_inverter.md rules R100 to R109). Pure
functions of any dimension `n`; the block uses `n = 32` (spec/00_scope.md rule R5). Addition is exclusive or,
multiplication is and (R9, R100, R101). -/

namespace Sys2Proof.Machine

/-- The entry in row `i`, column `j` of `X`: bit `j` of word `i` (R8). -/
def entry {n : Nat} (X : BitMatrix n) (i j : Fin n) : Bool := X[i].getLsbD j.val

/-- `Id_n`: row `i` is `1 << i` (R8). -/
def identityMatrix (n : Nat) : BitMatrix n := Vector.ofFn fun i => 1#n <<< i.val

/-- The exclusive or of `f k` over all `k` from 0 to `n-1` (R104). -/
def xorOver {n : Nat} (f : Fin n → Bool) : Bool := (List.finRange n).foldl (fun p k => p ^^ f k) false

/-- `parity(v)`: the exclusive or of all bits of `v` (R9). -/
def parity {n : Nat} (v : BitVec n) : Bool := xorOver fun j : Fin n => v.getLsbD j.val

/-- Row `i` of `X * Y`: the sum of the rows `Y[k]` selected by the bits of the row `x` of `X`; the empty sum is the
zero word (R104). -/
def selectRows {n : Nat} (x : BitVec n) (Y : BitMatrix n) : BitVec n :=
  (List.finRange n).foldl (fun z k => if x.getLsbD k.val then z ^^^ Y[k] else z) 0#n

/-- The matrix product `X * Y` (R104). -/
def matMul {n : Nat} (X Y : BitMatrix n) : BitMatrix n := Vector.ofFn fun i => selectRows X[i] Y

/-- The word whose bit `i` is `f i`. -/
def wordOfBits {n : Nat} (f : Fin n → Bool) : BitVec n :=
  (List.finRange n).foldl (fun u i => if f i then u ||| (1#n <<< i.val) else u) 0#n

/-- `apply(X, v)`: bit `i` is `parity(X[i] and v)` (R104). -/
def applyMatrix {n : Nat} (X : BitMatrix n) (v : BitVec n) : BitVec n := wordOfBits fun i => parity (X[i] &&& v)

/-- `Y` is an inverse of `X` on both sides (R105). -/
def IsInverse {n : Nat} (X Y : BitMatrix n) : Prop := matMul X Y = identityMatrix n ∧ matMul Y X = identityMatrix n

/-- `X` is invertible (R105). -/
def Invertible {n : Nat} (X : BitMatrix n) : Prop := ∃ Y, IsInverse X Y

/-- `X` is singular: not invertible (R105). -/
def Singular {n : Nat} (X : BitMatrix n) : Prop := ¬ Invertible X

/-- Column `c` of `X` is a sum of columns of `X` with a smaller index, those that the bits of `v` select (R109). -/
def ColumnIsSumBefore {n : Nat} (X : BitMatrix n) (c : Fin n) : Prop :=
  ∃ v : BitVec n, (∀ j : Fin n, v.getLsbD j.val = true → j < c) ∧ ∀ i : Fin n, entry X i c = parity (X[i] &&& v)

/-- What `gf2_invert` returns: the inverse, or the column at which no pivot row was found (R106). -/
inductive InvertResult (n : Nat) where
  | ok (A : BitMatrix n)
  | singular (c : Fin n)
deriving DecidableEq, Repr

/-- The two buffers of an inversion: the private working copy `L` and the augmentation `A` (R31, R106). -/
structure Buffers (n : Nat) where
  L : BitMatrix n
  A : BitMatrix n
deriving DecidableEq, Repr

/-- `L` is a copy of the input and `A` the identity (R106). -/
def startBuffers {n : Nat} (X : BitMatrix n) : Buffers n := ⟨X, identityMatrix n⟩

/-- The pivot search: `least r in c..N-1 with L[r][c] = 1`, row `c` first (R106; spec/90_conflicts.md C1, C2). -/
def pivotRow {n : Nat} (L : BitMatrix n) (c : Fin n) : Option (Fin n) :=
  (List.finRange n).find? fun r => decide (c ≤ r) && entry L r c

/-- `swap(X[i], X[j])`: no effect when `i = j` (R10). -/
def swapRows {n : Nat} (X : BitMatrix n) (i j : Fin n) : BitMatrix n := (X.set i X[j]).set j X[i]

/-- Both halves are swapped in lockstep (R106). -/
def swapBoth {n : Nat} (B : Buffers n) (i j : Fin n) : Buffers n := ⟨swapRows B.L i j, swapRows B.A i j⟩

/-- The row addition of one row `r` in column step `c`: if `r != c` and `L[r][c] = 1`, row `c` is added to row `r` of
both buffers (R106). -/
def addPivotRow {n : Nat} (c : Fin n) (B : Buffers n) (r : Fin n) : Buffers n :=
  if r ≠ c ∧ entry B.L r c = true then
    ⟨B.L.set r (B.L[r] ^^^ B.L[c]), B.A.set r (B.A[r] ^^^ B.A[c])⟩
  else B

/-- The row additions of column step `c`, over every row in increasing order (R106). -/
def eliminate {n : Nat} (c : Fin n) (B : Buffers n) : Buffers n := (List.finRange n).foldl (addPivotRow c) B

/-- The column steps for the columns listed; the first column without a pivot row ends them with that column (R106). -/
def columnSteps {n : Nat} : List (Fin n) → Buffers n → Except (Fin n) (Buffers n)
  | [], B => .ok B
  | c :: cs, B =>
    match pivotRow B.L c with
    | none => .error c
    | some p => columnSteps cs (eliminate c (swapBoth B c p))

/-- `gf2_invert(n, X)`: Gauss-Jordan elimination over the columns in increasing order; after the last one the
augmentation holds the inverse (R106). -/
def gf2Invert {n : Nat} (X : BitMatrix n) : InvertResult n :=
  match columnSteps (List.finRange n) (startBuffers X) with
  | .ok B => .ok B.A
  | .error c => .singular c

end Sys2Proof.Machine
end

