-- ==== Sys2Proof/Machine/MatrixInverter.lean ====
section
/-! DEFINITION. The matrix commands MWR, MRD, MINV and IRD (spec/40_matrix_inverter.md section 3). -/

namespace Sys2Proof.Machine

/-- MWR: `M[r] <- wd`, and the inverse is invalid from now on, even when the row keeps its value (R110). -/
def execMwr (r : Row) (wd : Word) (s : State) : Result := respond .OK 0 (s.setRowM r wd).clearInverse

/-- MRD: `M[r]`, in every state (R111). -/
def execMrd (r : Row) (s : State) : Result := respond .OK (s.rowM r) s

/-- MINV on the result of `gf2_invert(32, M)`: `INV` is written on success only, `M` never (R112). -/
def finishInvert (s : State) : InvertResult 32 → Result
  | .ok A => respond .OK 0 (s.setINV A).markValid
  | .singular c => raise .ERR_SINGULAR (zextCol (colField c)) (s.markSingular c)

/-- MINV (R112). -/
def execMinv (s : State) : Result := finishInvert s (gf2Invert s.M)

/-- IRD: row `r` of the inverse while it is valid, else the error that says why not (R113). -/
def execIrd (r : Row) (s : State) : Result :=
  match s.ISTAT with
  | .NONE => raise .ERR_NOTREADY 0 s
  | .SINGULAR => raise .ERR_SINGULAR (zextCol s.FCOL) s
  | .VALID => respond .OK (s.rowINV r) s

end Sys2Proof.Machine
end

