-- ==== Sys2Proof/Machine/SboxClassifier.lean ====
section
/-! DEFINITION. The table commands TWR, TRD, TBLD, CLS and PRD (spec/41_sbox_classifier.md section 2). -/

namespace Sys2Proof.Machine

/-- TWR: `T[b][x] <- v`, and the bank's relation is invalid from now on, even when the entry keeps its value (R137). -/
def execTwr (b : Bank) (x v : Byte) (s : State) : Result := respond .OK 0 ((s.setEntryT b x v).setBuilt b false)

/-- TRD: `T[b][x]`, in every state (R138). -/
def execTrd (b : Bank) (x : Byte) (s : State) : Result := respond .OK (zextByte (s.entryT b x)) s

/-- TBLD: `IR[b] <- build_inverse(T[b])`; it cannot fail (R139). -/
def execTbld (b : Bank) (s : State) : Result :=
  respond .OK 0 ((s.setIR b (buildInverse (s.T.get b))).setBuilt b true)

/-- CLS: the annotation word of `IR[b][y]` once the relation is built (R141). -/
def execCls (b : Bank) (y : Byte) (s : State) : Result :=
  if s.TBUILT.get b then respond .OK (annot (s.listIR b y)) s else raise .ERR_NOTREADY 0 s

/-- PRD: element `k` of `IR[b][y]`; readiness is checked before the range (R142, R177). -/
def execPrd (b : Bank) (y k : Byte) (s : State) : Result :=
  if s.TBUILT.get b then
    match (s.listIR b y)[k.toNat]? with
    | some x => respond .OK (zextByte x) s
    | none => raise .ERR_RANGE (zextLen (s.listIR b y).length) s
  else raise .ERR_NOTREADY 0 s

end Sys2Proof.Machine
end

