-- ==== Sys2Proof/Machine/Dispatch.lean ====
section
/-! DEFINITION. One arm per command, each one call of its meaning. -/

namespace Sys2Proof.Machine

def exec (i : Instr) (s : State) : Host.Outcome State Fault Refusal :=
  match i with
  | .nop => Sys2Proof.Machine.execNop s
  | .stat => Sys2Proof.Machine.execStat s
  | .rst => Sys2Proof.Machine.execRst s
  | .mwr r wd => Sys2Proof.Machine.execMwr r wd s
  | .mrd r => Sys2Proof.Machine.execMrd r s
  | .minv => Sys2Proof.Machine.execMinv s
  | .ird r => Sys2Proof.Machine.execIrd r s
  | .twr b x v => Sys2Proof.Machine.execTwr b x v s
  | .trd b x => Sys2Proof.Machine.execTrd b x s
  | .tbld b => Sys2Proof.Machine.execTbld b s
  | .cls b y => Sys2Proof.Machine.execCls b y s
  | .prd b y k => Sys2Proof.Machine.execPrd b y k s

end Sys2Proof.Machine
end

