-- ==== Sys2Proof/Machine/Step.lean ====
section
/-! DEFINITION. One step is one command in, one response out (spec/00_scope.md rule R6), or one hardware reset, or
nothing when the host presents nothing. The block fetches no instructions and has no program counter
(spec/10_state.md rule R41): the next command is the next event of the host's sequence. -/

namespace Sys2Proof.Machine

/-- What the block does with the next event of the host (R6, R70, R71, R77, R81, R200). -/
def step (s : State) : Host.Outcome State Fault Refusal :=
  match s.host with
  | [] => idle s
  | .reset _ :: rest => hardReset (s.accept rest)
  | .command c :: rest =>
    match decode c.cw c.wd with
    | .ok i => exec i (s.accept rest)
    | .error _ => raiseIllegal (s.accept rest)

/-- The command whose bits are `w` is the next one the host presents; nothing else changes. -/
def State.withFetchWord (s : State) (nbits w : Nat) : State := s.present (commandOfBits nbits w)

end Sys2Proof.Machine
end

