-- ==== Sys2Proof/Machine/Assembler.lean ====
section
/-! DEFINITION. The assembler of spec/30_encoding.md rules R83 and R84: what each line encodes, the expansions of the
pseudo-instructions, and the textual form of a line. It is no part of the block; it says which commands a host
presents for a line of text. -/

namespace Sys2Proof.Machine

/-- `r<n>` names matrix row `n`; used for `n` in range only (R83). -/
def asmRow (n : Nat) : Row := Fin.ofNat 32 n

/-- A number as a byte; used for numbers in range only (R83). -/
def asmByte (n : Nat) : Byte := BitVec.ofNat 8 n

/-- A number as a 32-bit word; used for numbers in range only (R83). -/
def asmWord (n : Nat) : Word := BitVec.ofNat 32 n

/-- The MWR commands for the rows `ws`, from row `n` on (R84, `mload`). -/
def rowWrites : Nat → List Nat → List Instr
  | _, [] => []
  | n, w :: ws => .mwr (asmRow n) (asmWord w) :: rowWrites (n + 1) ws

/-- The TWR commands for the entries `vs`, from entry `n` on (R84, `tload`). -/
def entryWrites (b : Bank) : Nat → List Nat → List Instr
  | _, [] => []
  | n, v :: vs => .twr b (asmByte n) (asmByte v) :: entryWrites b (n + 1) vs

/-- The commands of a line in order: one for a command, the expansion for a pseudo-instruction (R83, R84); a raw word
names no command. -/
def asmInstrs : Asm → List Instr
  | .nop => [.nop]
  | .stat => [.stat]
  | .rst => [.rst]
  | .mwr n w => [.mwr (asmRow n) (asmWord w)]
  | .mrd n => [.mrd (asmRow n)]
  | .minv => [.minv]
  | .ird n => [.ird (asmRow n)]
  | .twr b x v => [.twr b (asmByte x) (asmByte v)]
  | .trd b x => [.trd b (asmByte x)]
  | .tbld b => [.tbld b]
  | .cls b y => [.cls b (asmByte y)]
  | .prd b y k => [.prd b (asmByte y) (asmByte k)]
  | .word _ _ => []
  | .mload ws => rowWrites 0 ws
  | .tload b vs => entryWrites b 0 vs
  | .invert ws => rowWrites 0 ws ++ [.minv]
  | .build b vs => entryWrites b 0 vs ++ [.tbld b]

/-- The command words of a line: a raw word stands for itself (R83). -/
def asmCommands : Asm → List Command
  | .word cw wd => [⟨asmWord cw, asmWord wd⟩]
  | a => (asmInstrs a).map encode

/-- The assembler refuses an operand out of its range (R83). -/
def assemble (a : Asm) : Option (List Command) := if a.wellFormed then some (asmCommands a) else none

/-- A program, line by line; one bad line refuses the whole. -/
def assembleLines : List Asm → Option (List Command)
  | [] => some []
  | a :: as =>
    match assemble a, assembleLines as with
    | some c, some cs => some (c ++ cs)
    | _, _ => none

/-! The text of a line (R83). Characters are given as a list. -/

/-- Spaces and tabs separate, a carriage return is ignored like them (log entry 6). -/
def isBlank (c : Char) : Bool := c == ' ' || c == '\t' || c == '\r'

/-- A piece of text without the blanks around it. -/
def trimBlanks (cs : List Char) : List Char :=
  ((cs.dropWhile isBlank).reverse.dropWhile isBlank).reverse

/-- The value of a digit in the bases up to 16; hexadecimal digits in either case (log entry 6). -/
def digitValue (c : Char) : Option Nat :=
  if '0' ≤ c ∧ c ≤ '9' then some (c.toNat - '0'.toNat)
  else if 'a' ≤ c ∧ c ≤ 'f' then some (c.toNat - 'a'.toNat + 10)
  else if 'A' ≤ c ∧ c ≤ 'F' then some (c.toNat - 'A'.toNat + 10)
  else none

/-- Digits in a base, after those that gave `acc`. -/
def digitsFrom (base acc : Nat) : List Char → Option Nat
  | [] => some acc
  | c :: cs =>
    match digitValue c with
    | some d => if d < base then digitsFrom base (acc * base + d) cs else none
    | none => none

/-- At least one digit in a base. -/
def digitsIn (base : Nat) (cs : List Char) : Option Nat := if cs = [] then none else digitsFrom base 0 cs

/-- "numbers are decimal, `0x` hexadecimal or `0b` binary" (R83). -/
def parseNumber : List Char → Option Nat
  | '0' :: 'x' :: cs => digitsIn 16 cs
  | '0' :: 'b' :: cs => digitsIn 2 cs
  | cs => digitsIn 10 cs

/-- `r<n>` (R83). -/
def parseRow : List Char → Option Nat
  | 'r' :: cs => digitsIn 10 cs
  | _ => none

/-- "`<bank>` is `even` or `t0` for `b = 0`, `odd` or `t1` for `b = 1`" (R83). -/
def parseBank (cs : List Char) : Option Bank :=
  if cs = ['e', 'v', 'e', 'n'] ∨ cs = ['t', '0'] then some .even
  else if cs = ['o', 'd', 'd'] ∨ cs = ['t', '1'] then some .odd
  else none

/-- Every piece a number. -/
def parseNumbers : List (List Char) → Option (List Nat)
  | [] => some []
  | cs :: rest =>
    match parseNumber cs, parseNumbers rest with
    | some n, some ns => some (n :: ns)
    | _, _ => none

/-- No operand. -/
def parse0 (a : Asm) : List (List Char) → Option Asm
  | [] => some a
  | _ => none

/-- A row. -/
def parseR (f : Nat → Asm) : List (List Char) → Option Asm
  | [r] => (parseRow r).map f
  | _ => none

/-- A row and a number. -/
def parseRN (f : Nat → Nat → Asm) : List (List Char) → Option Asm
  | [r, w] => (parseRow r).bind fun n => (parseNumber w).map (f n)
  | _ => none

/-- A bank. -/
def parseB (f : Bank → Asm) : List (List Char) → Option Asm
  | [b] => (parseBank b).map f
  | _ => none

/-- A bank and a number. -/
def parseBN (f : Bank → Nat → Asm) : List (List Char) → Option Asm
  | [b, x] => (parseBank b).bind fun b => (parseNumber x).map (f b)
  | _ => none

/-- A bank and two numbers. -/
def parseBNN (f : Bank → Nat → Nat → Asm) : List (List Char) → Option Asm
  | [b, x, v] => (parseBank b).bind fun b => (parseNumber x).bind fun x => (parseNumber v).map (f b x)
  | _ => none

/-- Two numbers. -/
def parseNN (f : Nat → Nat → Asm) : List (List Char) → Option Asm
  | [c, w] => (parseNumber c).bind fun c => (parseNumber w).map (f c)
  | _ => none

/-- A bank and a list of numbers. -/
def parseBNs (f : Bank → List Nat → Asm) : List (List Char) → Option Asm
  | b :: vs => (parseBank b).bind fun b => (parseNumbers vs).map (f b)
  | _ => none

/-- The line with this mnemonic and these operands; mnemonics are in lower case (R83, R84). -/
def parseCommand (m : List Char) (ops : List (List Char)) : Option Asm :=
  if m = ['n', 'o', 'p'] then parse0 .nop ops
  else if m = ['s', 't', 'a', 't'] then parse0 .stat ops
  else if m = ['r', 's', 't'] then parse0 .rst ops
  else if m = ['m', 'w', 'r'] then parseRN .mwr ops
  else if m = ['m', 'r', 'd'] then parseR .mrd ops
  else if m = ['m', 'i', 'n', 'v'] then parse0 .minv ops
  else if m = ['i', 'r', 'd'] then parseR .ird ops
  else if m = ['t', 'w', 'r'] then parseBNN .twr ops
  else if m = ['t', 'r', 'd'] then parseBN .trd ops
  else if m = ['t', 'b', 'l', 'd'] then parseB .tbld ops
  else if m = ['c', 'l', 's'] then parseBN .cls ops
  else if m = ['p', 'r', 'd'] then parseBNN .prd ops
  else if m = ['.', 'w', 'o', 'r', 'd'] then parseNN .word ops
  else if m = ['m', 'l', 'o', 'a', 'd'] then (parseNumbers ops).map .mload
  else if m = ['t', 'l', 'o', 'a', 'd'] then parseBNs .tload ops
  else if m = ['i', 'n', 'v', 'e', 'r', 't'] then (parseNumbers ops).map .invert
  else if m = ['b', 'u', 'i', 'l', 'd'] then parseBNs .build ops
  else none

/-- The operands of a line, between commas; nothing after the mnemonic is no operand. -/
def splitOperands (cs : List Char) : List (List Char) :=
  if trimBlanks cs = [] then [] else (cs.splitOn ',').map trimBlanks

/-- One line of text: nothing for a blank line or a comment, else one assembler line; `none` where the text is neither.
"One command per line ... `;` starts a comment" (R83). -/
def parseLine (text : List Char) : Option (List Asm) :=
  let line := trimBlanks (text.takeWhile (· != ';'))
  if line = [] then some []
  else
    (parseCommand (line.takeWhile fun c => !isBlank c) (splitOperands (line.dropWhile fun c => !isBlank c))).map
      fun a => [a]

/-- Every line of a program's text. -/
def parseProgram : List (List Char) → Option (List Asm)
  | [] => some []
  | l :: ls =>
    match parseLine l, parseProgram ls with
    | some a, some as => some (a ++ as)
    | _, _ => none

/-- The commands of a program's text, line by line (R83). -/
def assembleText (text : List Char) : Option (List Command) := (parseProgram (text.splitOn '\n')).bind assembleLines

/-- The host presents these commands, in this order, before everything it has still to present (R71). -/
def State.presentAll (s : State) (cs : List Command) : State := { s with host := cs.map .command ++ s.host }

end Sys2Proof.Machine
end

