-- ==== Sys2Proof/Safety.lean ====
section
/-! DEFINITION. What a right state and a right run of the block are: the invariants of spec/10_state.md rule R33, the
relations between states that frames and observations are stated with, and runs. -/

namespace Sys2Proof.Machine

/-- The invariants (b) to (e) of R33. (a) holds by the type of `ISTAT`; (f) is a property of every state's STATUS
word. -/
structure Inv (s : State) : Prop where
  /-- (b) while VALID, `INV` is what the elimination of the present `M` gives. -/
  valid : s.ISTAT = .VALID → gf2Invert s.M = .ok s.INV
  /-- (c) while SINGULAR, the elimination of the present `M` fails at the column in `FCOL`. -/
  singular : s.ISTAT = .SINGULAR → ∃ c : Row, gf2Invert s.M = .singular c ∧ s.FCOL = colField c
  /-- (d) `FCOL` is 0 unless SINGULAR. -/
  fcol : s.ISTAT ≠ .SINGULAR → s.FCOL = 0
  /-- (e) a built relation is the inverse relation of the present table. -/
  built : ∀ b, s.TBUILT.get b = true → s.IR.get b = buildInverse (s.T.get b)

/-- The fields of the matrix group are equal. -/
structure SameMatrixGroup (s t : State) : Prop where
  M : t.M = s.M
  INV : t.INV = s.INV
  ISTAT : t.ISTAT = s.ISTAT
  FCOL : t.FCOL = s.FCOL

/-- The fields of one table bank are equal. -/
structure SameBank (b : Bank) (s t : State) : Prop where
  T : t.T.get b = s.T.get b
  IR : t.IR.get b = s.IR.get b
  TBUILT : t.TBUILT.get b = s.TBUILT.get b

/-- Both banks are equal. -/
def SameTableGroup (s t : State) : Prop := ∀ b, SameBank b s t

/-- All seven fields of R20 are equal. -/
structure SameBlock (s t : State) : Prop where
  matrices : SameMatrixGroup s t
  tables : SameTableGroup s t

/-- What any command can show of two states is equal: `INV` counts only while it is valid, the relation of a bank only
while it is built (R22, R27, R43). -/
structure SameObservable (s t : State) : Prop where
  M : t.M = s.M
  ISTAT : t.ISTAT = s.ISTAT
  FCOL : t.FCOL = s.FCOL
  INV : s.ISTAT = .VALID → t.INV = s.INV
  T : t.T = s.T
  TBUILT : t.TBUILT = s.TBUILT
  IR : ∀ b, s.TBUILT.get b = true → t.IR.get b = s.IR.get b

/-- The commands that only read (R54). -/
def isRead : Instr → Bool
  | .nop | .stat | .mrd _ | .ird _ | .trd _ _ | .cls _ _ | .prd _ _ _ => true
  | .rst | .mwr _ _ | .minv | .twr _ _ _ | .tbld _ => false

/-- The bank a table command names (R145). -/
def bankOf : Instr → Option Bank
  | .twr b _ _ | .trd b _ | .tbld b | .cls b _ | .prd b _ _ => some b
  | .nop | .stat | .rst | .mwr _ _ | .mrd _ | .minv | .ird _ => none

/-- The commands of the matrix group, opcode group `0x1` (R76). -/
def isMatrixCommand : Instr → Bool
  | .mwr _ _ | .mrd _ | .minv | .ird _ => true
  | .nop | .stat | .rst | .twr _ _ _ | .trd _ _ | .tbld _ | .cls _ _ | .prd _ _ _ => false

/-- The command answers with this code and this data. -/
def Answers (i : Instr) (s : State) (code : RCode) (data : Word) : Prop :=
  ∃ t, exec i s = .next t ∧ t.rsp = some ⟨code, data⟩

/-- A command word with this opcode that does not match the command's row of the opcode map is answered
`(ERR_ILLEGAL, 0)` and changes nothing, whatever the operand word (R77). -/
def OtherFormsIllegal (op : BitVec 8) (mask pattern : Word) : Prop :=
  ∀ (s : State) (cw wd : Word), opField cw = op → cw &&& mask ≠ pattern →
    step (s.present ⟨cw, wd⟩) = .next { s with rsp := some ⟨.ERR_ILLEGAL, 0⟩ }

/-- The seven fields have the values of the table in R34, element by element. -/
structure IsResetBlock (s : State) : Prop where
  M : ∀ r : Row, s.M[r] = 0
  INV : ∀ r : Row, s.INV[r] = 0
  ISTAT : s.ISTAT = .NONE
  FCOL : s.FCOL = 0
  T : ∀ b x, s.entryT b x = 0
  IRzero : ∀ b, s.listIR b 0 = (List.range 256).map (BitVec.ofNat 8)
  IRother : ∀ b y, y ≠ 0 → s.listIR b y = []
  TBUILT : ∀ b, s.TBUILT.get b = false

/-- An elimination that may take any eligible row as the pivot of a column, not only the first (R115). -/
inductive AnyPivotRun {n : Nat} : List (Fin n) → Buffers n → Except (Fin n) (Buffers n) → Prop where
  | done (B : Buffers n) : AnyPivotRun [] B (.ok B)
  | fail {c : Fin n} {cs : List (Fin n)} {B : Buffers n} (h : ∀ r, c ≤ r → entry B.L r c = false) :
      AnyPivotRun (c :: cs) B (.error c)
  | pivot {c p : Fin n} {cs : List (Fin n)} {B : Buffers n} {res : Except (Fin n) (Buffers n)} (hcp : c ≤ p)
      (hp : entry B.L p c = true) (h : AnyPivotRun cs (eliminate c (swapBoth B c p)) res) :
      AnyPivotRun (c :: cs) B res

/-- `b << 16`: what a bank adds to a command word (R83). -/
def bankBits : Bank → Word
  | .even => 0x00000000
  | .odd => 0x00010000

/-- The commands `cs`, presented to `s` in order and executed one after another, end in `t`. -/
def Runs (s : State) (cs : List Command) (t : State) : Prop :=
  Host.Core.run Sys2Proof.core cs.length (s.presentAll cs) = .next t

/-- The value that row `r` of `M` has after these commands: what the latest MWR to it wrote, 0 after RST, `w` if there
is neither (R60). -/
def rowAfter (r : Row) (w : Word) : List Instr → Word
  | [] => w
  | i :: is =>
    rowAfter r
      (match i with
        | .mwr r' v => if r' = r then v else w
        | .rst => 0
        | .nop | .stat | .mrd _ | .minv | .ird _ | .twr _ _ _ | .trd _ _ | .tbld _ | .cls _ _ | .prd _ _ _ => w)
      is

/-- The value that `T[b][x]` has after these commands: what the latest TWR to it wrote, 0 after RST, `v` if there is
neither (R60). -/
def entryAfter (b : Bank) (x v : Byte) : List Instr → Byte
  | [] => v
  | i :: is =>
    entryAfter b x
      (match i with
        | .twr b' x' v' => if b' = b ∧ x' = x then v' else v
        | .rst => 0
        | .nop | .stat | .mwr _ _ | .mrd _ | .minv | .ird _ | .trd _ _ | .tbld _ | .cls _ _ | .prd _ _ _ => v)
      is

/-- `t` is reached from `s` by any sequence of host events, each of which the block has dealt with (R33). -/
inductive Reaches : State → State → Prop where
  | refl (s : State) : Reaches s s
  | step {s t u : State} (e : List HostEvent) (h : Reaches s t)
      (hs : Sys2Proof.Machine.step { t with host := e } = .next u) : Reaches s u

end Sys2Proof.Machine
end

