-- ==== Sys2Proof/Certificates/Slice0/Obligations.lean ====
section
/-! DEFINITION. The statements for the provers. Each docstring names the rule of spec/ that it formalises. Statements
over `s : State` hold of every state; where a rule speaks of reachable states only, the invariant `Inv` is a premise. -/

open Sys2Proof Sys2Proof.Machine

/-! Encoding. -/

/-- Decoding the words of any command gives the command back, every operand included (R72, R75, R81, R83). -/
def Obligations.DecodeOfEncode : Prop :=
  ∀ i : Instr, decode (encode i).cw (encode i).wd = .ok i

/-- A word that decodes is the encoding of what it decodes to, so no two words are one command; MWR takes its operand
from `wd` (R75, R81). -/
def Obligations.EncodeOfDecode : Prop :=
  ∀ (cw wd : Word) (i : Instr), decode cw wd = .ok i →
    (encode i).cw = cw ∧ ∀ r w, i = .mwr r w → w = wd

/-- R75: a word decodes to a command with a row's mnemonic exactly when `cw and mask = match` for that row, and no word
matches two rows. -/
def Obligations.DecoderIsTheOpcodeMap : Prop :=
  (∀ (cw wd : Word), ∀ row ∈ opcodeMap,
      cw &&& row.mask = row.pattern ↔ ∃ i, decode cw wd = .ok i ∧ i.mnemonic = row.mnemonic) ∧
    ∀ cw : Word, opcodeMap.Pairwise fun a b =>
      ¬ (cw &&& a.mask = a.pattern ∧ cw &&& b.mask = b.pattern)

/-- R75: the number of legal command words. -/
def Obligations.LegalWordCount : Prop :=
  (Finset.univ.filter fun cw : Word => legalWord cw = true).card = 263270

/-- R77: a word is legal exactly when no clause (a), (b), (c) applies; an illegal word is one that the decoder refuses;
it is answered `(ERR_ILLEGAL, 0)` whatever `wd` and the state, and changes nothing. -/
def Obligations.IllegalWordsAnswerErrIllegal : Prop :=
  (∀ cw : Word, legalWord cw = true ↔
      zField cw = 0 ∧
        ((opField cw ∈ [0x00#8, 0x01#8, 0x02#8, 0x12#8] ∧ bField cw = 0 ∧ idxField cw = 0 ∧ immField cw = 0) ∨
          (opField cw ∈ [0x10#8, 0x11#8, 0x13#8] ∧ bField cw = 0 ∧ (idxField cw).extractLsb' 5 3 = 0 ∧
            immField cw = 0) ∨
          opField cw ∈ [0x20#8, 0x24#8] ∨
          (opField cw ∈ [0x21#8, 0x23#8] ∧ immField cw = 0) ∨
          (opField cw = 0x22#8 ∧ idxField cw = 0 ∧ immField cw = 0))) ∧
    (∀ cw wd : Word, legalWord cw = false ↔ ∃ e, decode cw wd = .error e) ∧
    ∀ (s : State) (cw wd : Word), legalWord cw = false →
      step (s.present ⟨cw, wd⟩) = .next { s with rsp := some ⟨.ERR_ILLEGAL, 0⟩ }

/-- The words of spec/95_test_vectors.md V-E1 decode to the commands it lists, and a few words of V-E2 do not decode. -/
def Obligations.SampleWordsDecode : Prop :=
  decode 0x00000000 5 = .ok .nop ∧ decode 0x01000000 5 = .ok .stat ∧ decode 0x02000000 5 = .ok .rst ∧
    decode 0x10001F00 5 = .ok (.mwr 31 5) ∧ decode 0x11000000 5 = .ok (.mrd 0) ∧
    decode 0x12000000 5 = .ok .minv ∧ decode 0x13001F00 5 = .ok (.ird 31) ∧
    decode 0x2001FFAB 5 = .ok (.twr .odd 0xFF 0xAB) ∧ decode 0x2100FF00 5 = .ok (.trd .even 0xFF) ∧
    decode 0x22010000 5 = .ok (.tbld .odd) ∧ decode 0x23018000 5 = .ok (.cls .odd 0x80) ∧
    decode 0x2401FFFF 5 = .ok (.prd .odd 0xFF 255) ∧
    ∀ i, decode 0x03000000 5 ≠ .ok i ∧ decode 0x00020000 5 ≠ .ok i ∧ decode 0x10002000 5 ≠ .ok i

/-- R82: only MWR reads the operand word: for every other command word, legal or illegal, the response and the next
state do not depend on it. -/
def Obligations.OperandWordReadByMwrOnly : Prop :=
  ∀ (s : State) (cw wd wd' : Word), (∀ r w, decode cw wd ≠ .ok (.mwr r w)) →
    step (s.present ⟨cw, wd⟩) = step (s.present ⟨cw, wd'⟩)

/-! The port and the step. -/

/-- When the host presents a command that decodes to `i`, the step is `exec i`, with the command taken off the host's
sequence. -/
def Obligations.StepRunsDecodedCommand : Prop :=
  ∀ (s : State) (c : Command) (rest : List HostEvent) (i : Instr),
    s.host = .command c :: rest → decode c.cw c.wd = .ok i → step s = exec i { s with host := rest }

/-- R71, R170: every command presented gets exactly one response, in the step that takes it; no step stops the
block. -/
def Obligations.EveryCommandIsAnswered : Prop :=
  (∀ s : State, ∃ t, step s = .next t) ∧
    ∀ (s : State) (c : Command) (rest : List HostEvent), s.host = .command c :: rest →
      ∃ t r, step s = .next t ∧ t.host = rest ∧ t.rsp = some r

/-- R178: between two commands the state does not change: with nothing presented, a step keeps all seven fields, and
there is no response (that the port is cleared is the model's choice, log entry 3). -/
def Obligations.IdleBlockKeepsItsState : Prop :=
  ∀ s : State, s.host = [] → step s = .next { s with rsp := none }

/-- R201: a hardware reset between commands, or instead of the response of a command in flight, leaves the reset state
and no response. -/
def Obligations.HardwareResetDiscardsTheCommand : Prop :=
  ∀ (s : State) (inFlight : Option Command) (rest : List HostEvent), s.host = .reset inFlight :: rest →
    ∃ t, step s = .next t ∧ IsResetBlock t ∧ t.rsp = none

/-- A step takes exactly one event of the host, whatever it is, and leaves the others for later steps: the model's
choice (log entries 1 and 4). -/
def Obligations.HostSequenceIsTakenInOrder : Prop :=
  ∀ (s : State) (e : HostEvent) (rest : List HostEvent), s.host = e :: rest → ∃ t, step s = .next t ∧ t.host = rest

/-- R60: the state after a sequence of commands is that of applying their rules one after another: commands always run
to their end, and a sequence in two parts runs as the first part and then the second from where it left. -/
def Obligations.CommandsApplyInOrder : Prop :=
  (∀ (s : State) (cs : List Command), ∃ t, Runs s cs t ∧ t.host = s.host) ∧
    ∀ (s t u : State) (cs ds : List Command), Runs s cs t → (Runs s (cs ++ ds) u ↔ Runs t ds u)

/-- R60 (a): after any commands from reset, a row or an entry holds what the latest write to it wrote, or its reset
value. -/
def Obligations.LatestWriteIsHeld : Prop :=
  ∀ (is : List Instr) (t : State), Runs State.reset (is.map encode) t →
    (∀ r, t.M[r] = rowAfter r 0 is) ∧ ∀ b x, t.entryT b x = entryAfter b x 0 is

/-! Reset and control. -/

/-- R34: the state after reset, and after RST from any state, is exactly the table's. -/
def Obligations.ResetStateIsTheTable : Prop :=
  (IsResetBlock State.reset ∧ State.reset.statusWord = 0 ∧ State.reset.rsp = none) ∧
    ∀ s : State, ∃ t, exec .rst s = .next t ∧ IsResetBlock t ∧ t.statusWord = 0

/-- R27: the relations after reset are the inverse relations of the all-zero reset tables. -/
def Obligations.ResetRelationIsThatOfTheZeroTable : Prop :=
  ∀ b, State.reset.IR.get b = buildInverse (State.reset.T.get b)

/-- R160: NOP answers `(OK, 0)` in every state and writes nothing; the all-zero word is the only NOP, and any other word
that is no other legal command is answered `(ERR_ILLEGAL, 0)`. -/
def Obligations.NopDoesNothing : Prop :=
  (∀ s : State, exec .nop s = .next { s with rsp := some ⟨.OK, 0⟩ }) ∧
    (∀ (s : State) (wd : Word), step (s.present ⟨0x00000000, wd⟩) = exec .nop s) ∧
    (∀ cw wd : Word, decode cw wd = .ok .nop ↔ cw = 0) ∧
    ∀ (s : State) (cw wd : Word), cw ≠ 0 →
      (∀ row ∈ opcodeMap, row.mnemonic ≠ "NOP" → cw &&& row.mask ≠ row.pattern) →
      step (s.present ⟨cw, wd⟩) = .next { s with rsp := some ⟨.ERR_ILLEGAL, 0⟩ }

/-- R161: STAT answers the STATUS word and writes nothing; in a state that keeps the invariants `FCOL` is 0 unless
`ISTAT` is SINGULAR. -/
def Obligations.StatReadsStatus : Prop :=
  (∀ s : State, exec .stat s = .next { s with rsp := some ⟨.OK,
      s.ISTAT.code.setWidth 32 ||| ((BitVec.ofBool (s.TBUILT.get .even)).setWidth 32 <<< 2) |||
        ((BitVec.ofBool (s.TBUILT.get .odd)).setWidth 32 <<< 3) ||| (s.FCOL.setWidth 32 <<< 8)⟩ }) ∧
    (∀ s : State, Inv s → s.ISTAT ≠ .SINGULAR → s.FCOL = 0) ∧
    (∀ (s : State) (wd : Word), step (s.present ⟨0x01000000, wd⟩) = exec .stat s) ∧
    OtherFormsIllegal 0x01 0xFFFFFFFF 0x01000000

/-- R30: the fields of the STATUS word and its hardwired zeros, in every state. -/
def Obligations.StatusWordFields : Prop :=
  ∀ s : State,
    s.statusWord.extractLsb' 0 2 = s.ISTAT.code ∧ s.ISTAT.code ≠ 3 ∧
      s.statusWord.getLsbD 2 = s.TBUILT.get .even ∧ s.statusWord.getLsbD 3 = s.TBUILT.get .odd ∧
      s.statusWord.extractLsb' 4 4 = 0 ∧ s.statusWord.extractLsb' 8 5 = s.FCOL ∧
      s.statusWord.extractLsb' 13 19 = 0

/-- R162, R202: RST leaves exactly the state of a hardware reset, and is answered `(OK, 0)` like any command. -/
def Obligations.RstIsAHardwareReset : Prop :=
  (∀ s : State, ∃ t u, exec .rst s = .next t ∧ t.rsp = some ⟨.OK, 0⟩ ∧ t.host = s.host ∧
      step { s with host := [.reset none] } = .next u ∧ SameBlock u t ∧ IsResetBlock t) ∧
    (∀ (s : State) (wd : Word), step (s.present ⟨0x02000000, wd⟩) = exec .rst s) ∧
    OtherFormsIllegal 0x02 0xFFFFFFFF 0x02000000

/-! The matrix commands. -/

/-- R110: MWR writes row `r`, and always sets `ISTAT = NONE` and `FCOL = 0`; the other rows, `INV` and all table state
are unchanged; IRD then answers ERR_NOTREADY. -/
def Obligations.MwrWritesOneRow : Prop :=
  (∀ (s : State) (r : Row) (wd : Word), ∃ t, exec (.mwr r wd) s = .next t ∧
      step (s.present ⟨0x10000000#32 ||| (BitVec.ofNat 32 r.val <<< 8), wd⟩) = .next t ∧
      (∀ r', t.M[r'] = if r' = r then wd else s.M[r']) ∧ t.ISTAT = .NONE ∧ t.FCOL = 0 ∧
      t.INV = s.INV ∧ SameTableGroup s t ∧ t.host = s.host ∧ t.rsp = some ⟨.OK, 0⟩ ∧
      ∀ r', exec (.ird r') t = .next { t with rsp := some ⟨.ERR_NOTREADY, 0⟩ }) ∧
    OtherFormsIllegal 0x10 0xFFFFE0FF 0x10000000

/-- R111: MRD answers `M[r]` in every state and writes nothing; after a MINV it answers what it answered before. -/
def Obligations.MrdReadsOneRow : Prop :=
  (∀ (s : State) (r : Row), exec (.mrd r) s = .next { s with rsp := some ⟨.OK, s.M[r]⟩ }) ∧
    (∀ (s t : State) (r : Row), exec .minv s = .next t → Answers (.mrd r) t .OK s.M[r]) ∧
    (∀ (s : State) (r : Row) (wd : Word),
      step (s.present ⟨0x11000000#32 ||| (BitVec.ofNat 32 r.val <<< 8), wd⟩) = exec (.mrd r) s) ∧
    OtherFormsIllegal 0x11 0xFFFFE0FF 0x11000000

/-- R112: MINV on an invertible matrix writes `INV`, `ISTAT = VALID` and `FCOL = 0` and answers `(OK, 0)`; on a singular
one it writes `ISTAT = SINGULAR` and `FCOL = c` and answers `(ERR_SINGULAR, c)`; `M` and the tables never change, and a
second MINV changes nothing and answers the same. -/
def Obligations.MinvInverts : Prop :=
  (∀ (s : State) (A : BitMatrix 32), gf2Invert s.M = .ok A → ∃ t, exec .minv s = .next t ∧
      t.M = s.M ∧ t.INV = A ∧ t.ISTAT = .VALID ∧ t.FCOL = 0 ∧ SameTableGroup s t ∧ t.host = s.host ∧
      t.rsp = some ⟨.OK, 0⟩ ∧ exec .minv t = .next t) ∧
    (∀ (s : State) (c : Fin 32), gf2Invert s.M = .singular c → ∃ t, exec .minv s = .next t ∧
      t.M = s.M ∧ t.INV = s.INV ∧ t.ISTAT = .SINGULAR ∧ t.FCOL = BitVec.ofNat 5 c.val ∧ SameTableGroup s t ∧
      t.host = s.host ∧ t.rsp = some ⟨.ERR_SINGULAR, BitVec.ofNat 32 c.val⟩ ∧ exec .minv t = .next t) ∧
    (∀ s : State, Singular s.M ↔ ∃ c, Answers .minv s .ERR_SINGULAR c) ∧
    Answers .minv State.reset .ERR_SINGULAR 0 ∧
    (∀ (s : State) (wd : Word), step (s.present ⟨0x12000000, wd⟩) = exec .minv s) ∧
    OtherFormsIllegal 0x12 0xFFFFFFFF 0x12000000

/-- R113: IRD answers `INV[r]` while VALID, `(ERR_NOTREADY, 0)` while NONE and `(ERR_SINGULAR, FCOL)` while SINGULAR,
and writes nothing; in a state that keeps the invariants the row it answers is that of the inverse of the present
`M`. -/
def Obligations.IrdReadsTheInverse : Prop :=
  (∀ (s : State) (r : Row), s.ISTAT = .VALID → exec (.ird r) s = .next { s with rsp := some ⟨.OK, s.INV[r]⟩ }) ∧
    (∀ (s : State) (r : Row), s.ISTAT = .NONE →
      exec (.ird r) s = .next { s with rsp := some ⟨.ERR_NOTREADY, 0⟩ }) ∧
    (∀ (s : State) (r : Row), s.ISTAT = .SINGULAR →
      exec (.ird r) s = .next { s with rsp := some ⟨.ERR_SINGULAR, s.FCOL.setWidth 32⟩ }) ∧
    (∀ (s : State), Inv s → s.ISTAT = .VALID → IsInverse s.M s.INV) ∧
    (∀ (s : State) (r : Row) (wd : Word),
      step (s.present ⟨0x13000000#32 ||| (BitVec.ofNat 32 r.val <<< 8), wd⟩) = exec (.ird r) s) ∧
    OtherFormsIllegal 0x13 0xFFFFE0FF 0x13000000

/-! GF(2) elimination, for every dimension. -/

/-- R104: the product by entries and by rows, and the laws of `apply`. -/
def Obligations.ProductAndApplyLaws : Prop :=
  ∀ (n : Nat) (X Y : BitMatrix n) (v : BitVec n),
    (∀ i j, entry (matMul X Y) i j = xorOver fun k => entry X i k && entry Y k j) ∧
      (∀ i : Fin n, (matMul X Y)[i] = selectRows X[i] Y) ∧
      (∀ i : Fin n, (applyMatrix X v).getLsbD i.val = parity (X[i] &&& v)) ∧
      applyMatrix (matMul X Y) v = applyMatrix X (applyMatrix Y v) ∧
      applyMatrix (identityMatrix n) v = v

/-- R105: an inverse is unique, and either one of the two equations makes an inverse. -/
def Obligations.InverseIsUnique : Prop :=
  ∀ (n : Nat) (X Y Z : BitMatrix n),
    (IsInverse X Y → IsInverse X Z → Y = Z) ∧
      (matMul X Y = identityMatrix n → IsInverse X Y) ∧ (matMul Y X = identityMatrix n → IsInverse X Y)

/-- R107 (a), (b), (c): after the first `c` columns, `A * X = L`, the first `c` columns of `L` are those of the
identity, and `A` is invertible. -/
def Obligations.EliminationLoopInvariant : Prop :=
  ∀ (n : Nat) (X : BitMatrix n) (c : Nat) (B : Buffers n), c ≤ n →
    columnSteps ((List.finRange n).take c) (startBuffers X) = .ok B →
    matMul B.A X = B.L ∧ (∀ i j : Fin n, j.val < c → (entry B.L i j = true ↔ i = j)) ∧ Invertible B.A

/-- R108: what `gf2_invert` returns is the inverse on both sides; applying one after the other is the identity; the
inverse of the inverse is the matrix, and the identity is its own inverse. -/
def Obligations.InverterIsRight : Prop :=
  (∀ (n : Nat) (X A : BitMatrix n), gf2Invert X = .ok A →
      matMul A X = identityMatrix n ∧ matMul X A = identityMatrix n ∧
        (∀ v, applyMatrix A (applyMatrix X v) = v) ∧ (∀ v, applyMatrix X (applyMatrix A v) = v) ∧
        gf2Invert A = .ok X) ∧
    ∀ n : Nat, gf2Invert (identityMatrix n) = .ok (identityMatrix n)

/-- R109: `gf2_invert` fails exactly on the singular matrices, at the least column that is a sum of columns before it; a
matrix with a zero row fails, and the identity with one row zeroed fails at the index of that row. -/
def Obligations.FailureIsExact : Prop :=
  (∀ (n : Nat) (X : BitMatrix n),
      ((∃ c, gf2Invert X = .singular c) ↔ Singular X) ∧ ((∃ A, gf2Invert X = .ok A) ↔ Invertible X)) ∧
    (∀ (n : Nat) (X : BitMatrix n) (c : Fin n), gf2Invert X = .singular c →
      ColumnIsSumBefore X c ∧ ∀ c' < c, ¬ ColumnIsSumBefore X c') ∧
    (∀ (n : Nat) (X : BitMatrix n) (r : Fin n), X[r] = 0 → ∃ c, gf2Invert X = .singular c) ∧
    ∀ (n : Nat) (r : Fin n), gf2Invert ((identityMatrix n).set r 0) = .singular r

/-- R115: the row additions of a column step may be made in any order, and any eligible pivot gives the same inverse or
fails at the same column. -/
def Obligations.PivotAndOrderDoNotMatter : Prop :=
  (∀ (n : Nat) (c : Fin n) (B : Buffers n) (rs : List (Fin n)), rs.Perm (List.finRange n) →
      rs.foldl (addPivotRow c) B = eliminate c B) ∧
    (∀ (n : Nat) (X : BitMatrix n) (B : Buffers n),
      AnyPivotRun (List.finRange n) (startBuffers X) (.ok B) → gf2Invert X = .ok B.A) ∧
    ∀ (n : Nat) (X : BitMatrix n) (c : Fin n),
      AnyPivotRun (List.finRange n) (startBuffers X) (.error c) → gf2Invert X = .singular c

/-! The table commands. -/

/-- R137: TWR writes one entry and always clears the bank's `TBUILT`; the other entries, the other bank, both relations
and all matrix state are unchanged; CLS and PRD on the bank then answer ERR_NOTREADY. -/
def Obligations.TwrWritesOneEntry : Prop :=
  (∀ (s : State) (b : Bank) (x v : Byte), ∃ t, exec (.twr b x v) s = .next t ∧
      (∀ wd, step (s.present ⟨0x20000000#32 ||| ((bitOfBank b).setWidth 32 <<< 16) ||| (x.setWidth 32 <<< 8) |||
        v.setWidth 32, wd⟩) = .next t) ∧
      (∀ x', t.entryT b x' = if x' = x then v else s.entryT b x') ∧ t.TBUILT.get b = false ∧ t.IR = s.IR ∧
      (∀ b', b' ≠ b → SameBank b' s t) ∧ SameMatrixGroup s t ∧ t.host = s.host ∧ t.rsp = some ⟨.OK, 0⟩ ∧
      (∀ y, exec (.cls b y) t = .next { t with rsp := some ⟨.ERR_NOTREADY, 0⟩ }) ∧
      ∀ y k, exec (.prd b y k) t = .next { t with rsp := some ⟨.ERR_NOTREADY, 0⟩ }) ∧
    OtherFormsIllegal 0x20 0xFFFE0000 0x20000000

/-- R138: TRD answers `zext_32(T[b][x])` in every state and writes nothing. -/
def Obligations.TrdReadsOneEntry : Prop :=
  (∀ (s : State) (b : Bank) (x : Byte),
      exec (.trd b x) s = .next { s with rsp := some ⟨.OK, (s.entryT b x).setWidth 32⟩ }) ∧
    (∀ (s : State) (b : Bank) (x : Byte) (wd : Word),
      step (s.present ⟨0x21000000#32 ||| ((bitOfBank b).setWidth 32 <<< 16) ||| (x.setWidth 32 <<< 8), wd⟩) =
        exec (.trd b x) s) ∧
    OtherFormsIllegal 0x21 0xFFFE00FF 0x21000000

/-- R139: TBLD gives every list of the bank the bytes that the present table maps to it, in increasing order, sets
`TBUILT[b]` and cannot fail; the tables, the other bank and all matrix state are unchanged, and a second TBLD changes
nothing and answers the same. -/
def Obligations.TbldBuildsTheRelation : Prop :=
  (∀ (s : State) (b : Bank), ∃ t, exec (.tbld b) s = .next t ∧
      t.IR.get b = buildInverse (s.T.get b) ∧
      (∀ y, t.listIR b y = ((List.range 256).map (BitVec.ofNat 8)).filter fun x => s.entryT b x == y) ∧
      t.TBUILT.get b = true ∧ t.T = s.T ∧ (∀ b', b' ≠ b → SameBank b' s t) ∧ SameMatrixGroup s t ∧
      t.host = s.host ∧ t.rsp = some ⟨.OK, 0⟩ ∧ exec (.tbld b) t = .next t) ∧
    (∀ (s : State) (b : Bank) (wd : Word),
      step (s.present ⟨0x22000000#32 ||| ((bitOfBank b).setWidth 32 <<< 16), wd⟩) = exec (.tbld b) s) ∧
    OtherFormsIllegal 0x22 0xFFFEFFFF 0x22000000

/-- R141: CLS answers the annotation word of `IR[b][y]` once the relation is built, and `(ERR_NOTREADY, 0)` before, and
writes nothing; the class, the count and the two preimages in the answer are those of `classify`; in a state that keeps
the invariants the count is 256 exactly when all entries of the bank are `y`. -/
def Obligations.ClsAnswersTheAnnotation : Prop :=
  (∀ (s : State) (b : Bank) (y : Byte), s.TBUILT.get b = true →
      exec (.cls b y) s = .next { s with rsp := some ⟨.OK, annot (s.listIR b y)⟩ }) ∧
    (∀ (s : State) (b : Bank) (y : Byte) (d : Word), (s.listIR b y).length ≤ 256 → Answers (.cls b y) s .OK d →
      (d.extractLsb' 30 2 = 0 ↔ classify (s.IR.get b) y = .DeadEnd) ∧
        (∀ x, classify (s.IR.get b) y = .Forced x ↔ d.extractLsb' 30 2 = 1 ∧ d.extractLsb' 0 8 = x) ∧
        (d.extractLsb' 30 2 = 2 ↔ ∃ l, classify (s.IR.get b) y = .Branching l) ∧
        ∀ l, classify (s.IR.get b) y = .Branching l → (d.extractLsb' 16 9).toNat = l.length ∧
          l[0]? = some (d.extractLsb' 0 8) ∧ l[1]? = some (d.extractLsb' 8 8)) ∧
    (∀ (s : State) (b : Bank) (y : Byte) (d : Word), Inv s → Answers (.cls b y) s .OK d →
      ((d.extractLsb' 16 9).toNat = 256 ↔ ∀ x, s.entryT b x = y)) ∧
    (∀ (s : State) (b : Bank) (y : Byte), s.TBUILT.get b = false →
      exec (.cls b y) s = .next { s with rsp := some ⟨.ERR_NOTREADY, 0⟩ }) ∧
    (∀ (s : State) (b : Bank) (y : Byte) (wd : Word),
      step (s.present ⟨0x23000000#32 ||| ((bitOfBank b).setWidth 32 <<< 16) ||| (y.setWidth 32 <<< 8), wd⟩) =
        exec (.cls b y) s) ∧
    OtherFormsIllegal 0x23 0xFFFE00FF 0x23000000

/-- R142: PRD answers element `k` of `IR[b][y]` when it exists, `(ERR_RANGE, length)` when it does not, and
`(ERR_NOTREADY, 0)` while the relation is not built, and writes nothing; at positions 0 and 1 it answers the bytes that
CLS has in its fields. -/
def Obligations.PrdReadsOnePreimage : Prop :=
  (∀ (s : State) (b : Bank) (y k : Byte) (h : k.toNat < (s.listIR b y).length), s.TBUILT.get b = true →
      exec (.prd b y k) s = .next { s with rsp := some ⟨.OK, ((s.listIR b y)[k.toNat]).setWidth 32⟩ }) ∧
    (∀ (s : State) (b : Bank) (y k : Byte), s.TBUILT.get b = true → (s.listIR b y).length ≤ k.toNat →
      exec (.prd b y k) s = .next { s with rsp := some ⟨.ERR_RANGE, BitVec.ofNat 32 (s.listIR b y).length⟩ }) ∧
    (∀ (s : State) (b : Bank) (y k : Byte), s.TBUILT.get b = false →
      exec (.prd b y k) s = .next { s with rsp := some ⟨.ERR_NOTREADY, 0⟩ }) ∧
    (∀ (s : State) (b : Bank) (y : Byte) (d : Word), Answers (.cls b y) s .OK d →
      (0 < (s.listIR b y).length → Answers (.prd b y 0) s .OK ((d.extractLsb' 0 8).setWidth 32)) ∧
        (1 < (s.listIR b y).length → Answers (.prd b y 1) s .OK ((d.extractLsb' 8 8).setWidth 32))) ∧
    (∀ (s : State) (b : Bank) (y k : Byte) (wd : Word),
      step (s.present ⟨0x24000000#32 ||| ((bitOfBank b).setWidth 32 <<< 16) ||| (y.setWidth 32 <<< 8) |||
        k.setWidth 32, wd⟩) = exec (.prd b y k) s) ∧
    OtherFormsIllegal 0x24 0xFFFE0000 0x24000000

/-! The inverse relation. -/

/-- R132 (a) to (f): the laws of `build_inverse`. -/
def Obligations.RelationLaws : Prop :=
  ∀ t : Table,
    (∀ x y, x ∈ listAt (buildInverse t) y ↔ tableAt t x = y) ∧
      (∀ y, (listAt (buildInverse t) y).Pairwise fun a b => a.toNat < b.toNat) ∧
      (∀ x, ∃! y, x ∈ listAt (buildInverse t) y) ∧
      (∑ y : Byte, (listAt (buildInverse t) y).length) = 256 ∧
      (Function.Bijective (tableAt t) ↔ ∀ y, (listAt (buildInverse t) y).length = 1) ∧
      (Finset.univ.filter fun y : Byte => listAt (buildInverse t) y = []).card =
        (∑ y : Byte, ((listAt (buildInverse t) y).length - 1)) ∧
      (¬ Function.Bijective (tableAt t) → (∃ y, classify (buildInverse t) y = .DeadEnd) ∧
        ∃ y l, classify (buildInverse t) y = .Branching l) ∧
      ∀ t' : Table, buildInverse t' = buildInverse t → t' = t

/-- R133: the class of a byte is given by the length of its list, and `Branching` carries the whole ordered list. -/
def Obligations.ClassByLength : Prop :=
  ∀ (pre : Relation) (y : Byte),
    (classify pre y = .DeadEnd ↔ (listAt pre y).length = 0) ∧
      (∀ x, classify pre y = .Forced x ↔ (listAt pre y).length = 1 ∧ (listAt pre y)[0]? = some x) ∧
      ∀ l, classify pre y = .Branching l ↔ 2 ≤ (listAt pre y).length ∧ l = listAt pre y

/-- R134: the fields of the annotation word of a list of at most 256 bytes, and its forms for lists of no, one and two
elements. -/
def Obligations.AnnotationFields : Prop :=
  (∀ l : List Byte, l.length ≤ 256 →
      (annot l).extractLsb' 30 2 = (if l.length = 0 then 0#2 else if l.length = 1 then 1#2 else 2#2) ∧
        (annot l).extractLsb' 25 5 = 0 ∧ ((annot l).extractLsb' 16 9).toNat = l.length ∧
        (annot l).extractLsb' 8 8 = (l[1]?).getD 0 ∧ (annot l).extractLsb' 0 8 = (l[0]?).getD 0) ∧
    annot [] = 0x00000000 ∧ (∀ x : Byte, annot [x] = 0x40010000#32 ||| x.setWidth 32) ∧
    ∀ x0 x1 : Byte, annot [x0, x1] = 0x80020000#32 ||| (x1.setWidth 32 <<< 8) ||| x0.setWidth 32

/-- In a state that keeps the invariants, the class and the count in a CLS answer are those of the present table: dead
end when no input maps to `y`, forced when exactly one does, branching when two or more do. -/
def Obligations.ClsClassifiesThePresentTable : Prop :=
  ∀ (s : State) (b : Bank) (y : Byte) (d : Word), Inv s → Answers (.cls b y) s .OK d →
    (d.extractLsb' 30 2 = 0 ↔ ∀ x, s.entryT b x ≠ y) ∧
      (d.extractLsb' 30 2 = 1 ↔ ∃! x, s.entryT b x = y) ∧
      (d.extractLsb' 30 2 = 2 ↔ ∃ x x', x ≠ x' ∧ s.entryT b x = y ∧ s.entryT b x' = y) ∧
      (d.extractLsb' 16 9).toNat = (Finset.univ.filter fun x : Byte => s.entryT b x = y).card

/-- R143: in a state that keeps the invariants, one CLS and then PRD from position 2 on give exactly the inputs that
the table maps to `y`, in increasing order. -/
def Obligations.EnumerationIsComplete : Prop :=
  ∀ (s : State) (b : Bank) (y : Byte), Inv s → s.TBUILT.get b = true →
    ∃ (d : Word) (l : List Byte), Answers (.cls b y) s .OK d ∧ (d.extractLsb' 16 9).toNat = l.length ∧
      (0 < l.length → l[0]? = some (d.extractLsb' 0 8)) ∧ (1 < l.length → l[1]? = some (d.extractLsb' 8 8)) ∧
      (∀ (k : Nat) (hk : k < l.length), 2 ≤ k →
        Answers (.prd b y (BitVec.ofNat 8 k)) s .OK ((l[k]).setWidth 32)) ∧
      (∀ x, x ∈ l ↔ s.entryT b x = y) ∧ l.Pairwise fun p q => p.toNat < q.toNat

/-- R29: the packed layout: 256 preimages in all, and element `k` of the list of `y` stands at `OFF[y] + k`. -/
def Obligations.PackedLayoutHoldsTheLists : Prop :=
  ∀ (t : Table) (y : Byte),
    (packedPre (buildInverse t)).length = 256 ∧ packedCnt (buildInverse t) y ≤ 256 ∧
      packedOff (buildInverse t) y + packedCnt (buildInverse t) y ≤ 256 ∧
      ∀ k, k < packedCnt (buildInverse t) y →
        (packedPre (buildInverse t))[packedOff (buildInverse t) y + k]? = (listAt (buildInverse t) y)[k]?

/-! Whole-machine rules. -/

/-- R33: the invariants hold at reset. -/
def Obligations.ResetKeepsTheInvariants : Prop := Inv State.reset

/-- R33: every step keeps the invariants, from every state that has them. -/
def Obligations.StepKeepsTheInvariants : Prop :=
  ∀ s t : State, Inv s → step s = .next t → Inv t

/-- R33 (a) to (f): in every state reached from reset by any sequence of host events. -/
def Obligations.ReachableStatesAreRight : Prop :=
  ∀ s : State, Reaches State.reset s →
    (s.ISTAT = .NONE ∨ s.ISTAT = .VALID ∨ s.ISTAT = .SINGULAR) ∧
      (s.ISTAT = .VALID → gf2Invert s.M = .ok s.INV ∧ matMul s.INV s.M = identityMatrix 32 ∧
        matMul s.M s.INV = identityMatrix 32) ∧
      (s.ISTAT = .SINGULAR → ∃ c : Fin 32, gf2Invert s.M = .singular c ∧ s.FCOL = BitVec.ofNat 5 c.val) ∧
      (s.ISTAT ≠ .SINGULAR → s.FCOL = 0) ∧
      (∀ b, s.TBUILT.get b = true → s.IR.get b = buildInverse (s.T.get b) ∧
        (∑ y : Byte, (s.listIR b y).length) = 256 ∧ ∀ x y, x ∈ s.listIR b y ↔ y = s.entryT b x) ∧
      s.statusWord.extractLsb' 4 4 = 0 ∧ s.statusWord.extractLsb' 13 19 = 0

/-- R23, R24, R28: which commands change a status field, and to what. -/
def Obligations.StatusFieldsChangeOnlySo : Prop :=
  ∀ (i : Instr) (s t : State), exec i s = .next t →
    (t.ISTAT = match i with
      | .mwr _ _ | .rst => .NONE
      | .minv => (match gf2Invert s.M with | .ok _ => .VALID | .singular _ => .SINGULAR)
      | .nop | .stat | .mrd _ | .ird _ | .twr _ _ _ | .trd _ _ | .tbld _ | .cls _ _ | .prd _ _ _ => s.ISTAT) ∧
    (t.FCOL = match i with
      | .mwr _ _ | .rst => 0
      | .minv => (match gf2Invert s.M with | .ok _ => 0 | .singular c => BitVec.ofNat 5 c.val)
      | .nop | .stat | .mrd _ | .ird _ | .twr _ _ _ | .trd _ _ | .tbld _ | .cls _ _ | .prd _ _ _ => s.FCOL) ∧
    ∀ b, t.TBUILT.get b = match i with
      | .rst => false
      | .twr b' _ _ => if b' = b then false else s.TBUILT.get b
      | .tbld b' => if b' = b then true else s.TBUILT.get b
      | .nop | .stat | .mwr _ _ | .mrd _ | .minv | .ird _ | .trd _ _ | .cls _ _ | .prd _ _ _ => s.TBUILT.get b

/-- R54: a read command leaves every field as it is, whatever it answers, and answers the same again; the side effects
of the write commands are those listed. -/
def Obligations.ReadsHaveNoSideEffect : Prop :=
  (∀ (i : Instr) (s : State), isRead i = true → ∃ r, exec i s = .next { s with rsp := some r }) ∧
    (∀ (i j : Instr) (s t u : State), isRead i = true → isRead j = true → exec i s = .next t → exec j t = .next u →
      exec i u = .next t) ∧
    ∀ s t : State,
      (∀ r wd, exec (.mwr r wd) s = .next t →
        t.ISTAT = .NONE ∧ t.FCOL = 0 ∧ t.INV = s.INV ∧ SameTableGroup s t) ∧
      (∀ b x v, exec (.twr b x v) s = .next t →
        t.TBUILT.get b = false ∧ t.IR = s.IR ∧ (∀ b', b' ≠ b → SameBank b' s t) ∧ SameMatrixGroup s t) ∧
      (exec .minv s = .next t → t.M = s.M ∧ SameTableGroup s t) ∧
      (∀ b, exec (.tbld b) s = .next t →
        t.TBUILT.get b = true ∧ t.T = s.T ∧ (∀ b', b' ≠ b → SameBank b' s t) ∧ SameMatrixGroup s t) ∧
      (exec .rst s = .next t → IsResetBlock t)

/-- R145: a table command of one bank neither changes nor reads the other bank or the matrix group; a matrix command
neither changes nor reads table state. -/
def Obligations.GroupsAndBanksAreIndependent : Prop :=
  (∀ (i : Instr) (b : Bank) (s t : State), bankOf i = some b → exec i s = .next t →
      SameMatrixGroup s t ∧ ∀ b', b' ≠ b → SameBank b' s t) ∧
    (∀ (i : Instr) (b : Bank) (s s' t t' : State), bankOf i = some b → SameBank b s s' →
      exec i s = .next t → exec i s' = .next t' → t.rsp = t'.rsp ∧ SameBank b t t') ∧
    (∀ (i : Instr) (s t : State), isMatrixCommand i = true → exec i s = .next t → SameTableGroup s t) ∧
    ∀ (i : Instr) (s s' t t' : State), isMatrixCommand i = true → SameMatrixGroup s s' →
      exec i s = .next t → exec i s' = .next t' → t.rsp = t'.rsp ∧ SameMatrixGroup t t'

/-- R171: after ERR_ILLEGAL, ERR_NOTREADY or ERR_RANGE the state is as before; after ERR_SINGULAR it is as before for
IRD, and for MINV only `ISTAT` and `FCOL` are written. -/
def Obligations.ErrorsChangeNothingElse : Prop :=
  (∀ (s t : State) (c : Command) (r : Response), step (s.present c) = .next t → t.rsp = some r →
      r.rcode = .ERR_ILLEGAL ∨ r.rcode = .ERR_NOTREADY ∨ r.rcode = .ERR_RANGE → t = { s with rsp := some r }) ∧
    ∀ (i : Instr) (s t : State) (d : Word), exec i s = .next t → t.rsp = some ⟨.ERR_SINGULAR, d⟩ →
      (i = .minv ∧ t = { s with ISTAT := .SINGULAR, FCOL := d.setWidth 5, rsp := some ⟨.ERR_SINGULAR, d⟩ }) ∨
        ((∃ r, i = .ird r) ∧ t = { s with rsp := some ⟨.ERR_SINGULAR, d⟩ })

/-- R172: the causes of the error codes, complete, with the information word and the state written of each. -/
def Obligations.ErrorCausesAreComplete : Prop :=
  (∀ (s : State) (cw wd : Word),
      step (s.present ⟨cw, wd⟩) = .next { s with rsp := some ⟨.ERR_ILLEGAL, 0⟩ } ↔ legalWord cw = false) ∧
    (∀ (i : Instr) (s t : State) (code : RCode) (d : Word), exec i s = .next t → t.rsp = some ⟨code, d⟩ → code ≠ .OK →
      t = if i = .minv then { s with ISTAT := .SINGULAR, FCOL := d.setWidth 5, rsp := some ⟨code, d⟩ }
        else { s with rsp := some ⟨code, d⟩ }) ∧
    (∀ (i : Instr) (s : State) (d : Word), ¬ Answers i s .ERR_ILLEGAL d) ∧
    (∀ (i : Instr) (s : State) (d : Word), Answers i s .ERR_SINGULAR d ↔
      (i = .minv ∧ ∃ c : Fin 32, gf2Invert s.M = .singular c ∧ d = BitVec.ofNat 32 c.val) ∨
        ((∃ r, i = .ird r) ∧ s.ISTAT = .SINGULAR ∧ d = s.FCOL.setWidth 32)) ∧
    (∀ (i : Instr) (s : State) (d : Word), Answers i s .ERR_NOTREADY d ↔
      d = 0 ∧ (((∃ r, i = .ird r) ∧ s.ISTAT = .NONE) ∨
        ∃ b, ((∃ y, i = .cls b y) ∨ ∃ y k, i = .prd b y k) ∧ s.TBUILT.get b = false)) ∧
    ∀ (i : Instr) (s : State) (d : Word), Answers i s .ERR_RANGE d ↔
      ∃ b y k, i = .prd b y k ∧ s.TBUILT.get b = true ∧ (s.listIR b y).length ≤ k.toNat ∧
        d = BitVec.ofNat 32 (s.listIR b y).length

/-- R177: the word is checked before the state, and readiness before the range. -/
def Obligations.ErrorPriority : Prop :=
  (∀ (s : State) (cw wd : Word), legalWord cw = false →
      ∃ t, step (s.present ⟨cw, wd⟩) = .next t ∧ t.rsp = some ⟨.ERR_ILLEGAL, 0⟩) ∧
    (∀ (s : State) (b : Bank) (y k : Byte), s.TBUILT.get b = false → Answers (.prd b y k) s .ERR_NOTREADY 0) ∧
    ∀ (s : State) (wd : Word), ∃ t, step (s.present ⟨0x13002800, wd⟩) = .next t ∧ t.rsp = some ⟨.ERR_ILLEGAL, 0⟩

/-- R60 (c), R204: no stale data: in a state that keeps the invariants, an IRD answered OK gives a row of the inverse of
the present `M`, and a CLS or PRD answered OK gives what the present table has. -/
def Obligations.AnswersAreNeverStale : Prop :=
  ∀ s : State, Inv s →
    (∀ r d, Answers (.ird r) s .OK d → ∃ A, IsInverse s.M A ∧ d = A[r]) ∧
      (∀ b y d, Answers (.cls b y) s .OK d → d = annot (listAt (buildInverse (s.T.get b)) y)) ∧
      ∀ b y k d, Answers (.prd b y k) s .OK d → ∃ x, d = x.setWidth 32 ∧ s.entryT b x = y

/-- R173: while the matrix loaded has no inverse, and as long as the host writes no row of it, no IRD succeeds, whatever
other commands it issues. -/
def Obligations.SingularMatrixHasNoReadableInverse : Prop :=
  ∀ (s t : State) (is : List Instr), Inv s → Singular s.M → (∀ r wd, Instr.mwr r wd ∉ is) →
    Runs s (is.map encode) t → ∀ r d, ¬ Answers (.ird r) t .OK d

/-- R43: two states that agree on what commands can show answer alike, and go on agreeing, under every event of the
host: `INV` while not VALID and `IR[b]` while not built cannot be observed. The responses of the two states before the
step may differ; that they are equal after an idle step rests on the model's choice that an idle step clears the port
(log entry 3). -/
def Obligations.HiddenStateIsNeverObserved : Prop :=
  ∀ s s' t t' : State, SameObservable s s' → s'.host = s.host → step s = .next t → step s' = .next t' →
    t'.rsp = t.rsp ∧ t'.host = t.host ∧ SameObservable t t'

/-- R185: once only read commands are issued, the block no longer changes, and each command is answered as if it were
alone, whatever reads come before it. -/
def Obligations.InterleavedReadsAreIndependent : Prop :=
  ∀ (s t : State) (is : List Instr) (i : Instr), (∀ j ∈ is, isRead j = true) → isRead i = true →
    Runs s (is.map encode) t →
    SameBlock s t ∧ ∀ code d, Answers i t code d ↔ Answers i s code d

/-! The assembler. -/

/-- R83, R84: the words that each line emits, and the ranges outside which the line is refused; only a raw word can be
an illegal command word. -/
def Obligations.AssemblerEmitsLegalWords : Prop :=
  assemble .nop = some [⟨0x00000000, 0⟩] ∧ assemble .stat = some [⟨0x01000000, 0⟩] ∧
    assemble .rst = some [⟨0x02000000, 0⟩] ∧ assemble .minv = some [⟨0x12000000, 0⟩] ∧
    (∀ n w : Nat, assemble (.mwr n w) =
      if n ≤ 31 ∧ w < 2 ^ 32 then some [⟨0x10000000#32 ||| (BitVec.ofNat 32 n <<< 8), BitVec.ofNat 32 w⟩] else none) ∧
    (∀ n : Nat, assemble (.mrd n) =
      if n ≤ 31 then some [⟨0x11000000#32 ||| (BitVec.ofNat 32 n <<< 8), 0⟩] else none) ∧
    (∀ n : Nat, assemble (.ird n) =
      if n ≤ 31 then some [⟨0x13000000#32 ||| (BitVec.ofNat 32 n <<< 8), 0⟩] else none) ∧
    (∀ (b : Bank) (x v : Nat), assemble (.twr b x v) =
      if x ≤ 255 ∧ v ≤ 255 then
        some [⟨0x20000000#32 ||| bankBits b ||| (BitVec.ofNat 32 x <<< 8) ||| BitVec.ofNat 32 v, 0⟩]
      else none) ∧
    (∀ (b : Bank) (x : Nat), assemble (.trd b x) =
      if x ≤ 255 then some [⟨0x21000000#32 ||| bankBits b ||| (BitVec.ofNat 32 x <<< 8), 0⟩] else none) ∧
    (∀ b : Bank, assemble (.tbld b) = some [⟨0x22000000#32 ||| bankBits b, 0⟩]) ∧
    (∀ (b : Bank) (y : Nat), assemble (.cls b y) =
      if y ≤ 255 then some [⟨0x23000000#32 ||| bankBits b ||| (BitVec.ofNat 32 y <<< 8), 0⟩] else none) ∧
    (∀ (b : Bank) (y k : Nat), assemble (.prd b y k) =
      if y ≤ 255 ∧ k ≤ 255 then
        some [⟨0x24000000#32 ||| bankBits b ||| (BitVec.ofNat 32 y <<< 8) ||| BitVec.ofNat 32 k, 0⟩]
      else none) ∧
    (∀ cw wd : Nat, assemble (.word cw wd) =
      if cw < 2 ^ 32 ∧ wd < 2 ^ 32 then some [⟨BitVec.ofNat 32 cw, BitVec.ofNat 32 wd⟩] else none) ∧
    (∀ ws : List Nat, assemble (.mload ws) =
      if ws.length = 32 ∧ ∀ w ∈ ws, w < 2 ^ 32 then
        some ((List.range 32).map fun n =>
          ⟨0x10000000#32 ||| (BitVec.ofNat 32 n <<< 8), BitVec.ofNat 32 (ws.getD n 0)⟩)
      else none) ∧
    (∀ (b : Bank) (vs : List Nat), assemble (.tload b vs) =
      if vs.length = 256 ∧ ∀ v ∈ vs, v ≤ 255 then
        some ((List.range 256).map fun x =>
          ⟨0x20000000#32 ||| bankBits b ||| (BitVec.ofNat 32 x <<< 8) ||| BitVec.ofNat 32 (vs.getD x 0), 0⟩)
      else none) ∧
    (∀ ws : List Nat, assemble (.invert ws) = (assemble (.mload ws)).map (· ++ [⟨0x12000000, 0⟩])) ∧
    (∀ (b : Bank) (vs : List Nat), assemble (.build b vs) =
      (assemble (.tload b vs)).map (· ++ [⟨0x22000000#32 ||| bankBits b, 0⟩])) ∧
    ∀ (a : Asm) (cs : List Command), (∀ cw wd, a ≠ .word cw wd) → assemble a = some cs →
      ∀ c ∈ cs, legalWord c.cw = true

/-- R84: `mload` and `tload` expand to the MWR and TWR commands of every row and entry in increasing order; issued in any
order they leave the same state, in which the matrix or the table holds the values given; `invert` and `build` go on
with MINV and TBLD. -/
def Obligations.PseudoInstructionsLoad : Prop :=
  (∀ ws : List Nat, (Asm.mload ws).wellFormed = true → asmCommands (.mload ws) =
      (List.finRange 32).map fun r => encode (.mwr r (BitVec.ofNat 32 (ws.getD r.val 0)))) ∧
  (∀ (b : Bank) (vs : List Nat), (Asm.tload b vs).wellFormed = true → asmCommands (.tload b vs) =
      (List.range 256).map fun x => encode (.twr b (BitVec.ofNat 8 x) (BitVec.ofNat 8 (vs.getD x 0)))) ∧
  (∀ (s : State) (ws : List Nat) (cs : List Command), (Asm.mload ws).wellFormed = true →
      cs.Perm (asmCommands (.mload ws)) →
      ∃ t, Runs s cs t ∧ (∀ r : Row, t.M[r] = BitVec.ofNat 32 (ws.getD r.val 0)) ∧ t.INV = s.INV ∧
        t.ISTAT = .NONE ∧ t.FCOL = 0 ∧ SameTableGroup s t ∧ t.host = s.host ∧ t.rsp = some ⟨.OK, 0⟩) ∧
    (∀ (s : State) (b : Bank) (vs : List Nat) (cs : List Command), (Asm.tload b vs).wellFormed = true →
      cs.Perm (asmCommands (.tload b vs)) →
      ∃ t, Runs s cs t ∧ (∀ x : Byte, t.entryT b x = BitVec.ofNat 8 (vs.getD x.toNat 0)) ∧ t.IR = s.IR ∧
        t.TBUILT.get b = false ∧ (∀ b', b' ≠ b → SameBank b' s t) ∧ SameMatrixGroup s t ∧ t.host = s.host ∧
        t.rsp = some ⟨.OK, 0⟩) ∧
    (∀ (s t u : State) (a : Asm) (cs ds : List Command), a.wellFormed = true →
      ((∃ ws, a = .mload ws) ∨ ∃ b vs, a = .tload b vs) → cs.Perm (asmCommands a) → ds.Perm (asmCommands a) →
      Runs s cs t → Runs s ds u → t = u) ∧
    (∀ ws, asmCommands (.invert ws) = asmCommands (.mload ws) ++ asmCommands .minv) ∧
    ∀ b vs, asmCommands (.build b vs) = asmCommands (.tload b vs) ++ asmCommands (.tbld b)

/-- R203, R108: loading an invertible matrix and issuing MINV answers OK, and the rows read by IRD are those of its
inverse; with a singular one MINV and every IRD answer ERR_SINGULAR with the same column. -/
def Obligations.BootSequenceYieldsTheInverse : Prop :=
  ∀ (s t : State) (X : BitMatrix 32), Runs s (asmCommands (.invert (X.toList.map BitVec.toNat))) t →
    (Invertible X → t.rsp = some ⟨.OK, 0⟩ ∧ ∃ A, IsInverse X A ∧ ∀ r : Row, Answers (.ird r) t .OK A[r]) ∧
      (Singular X → ∃ c, t.rsp = some ⟨.ERR_SINGULAR, c⟩ ∧ ∀ r : Row, Answers (.ird r) t .ERR_SINGULAR c)
end

