-- ==== Sys2Proof/Laws/Encoding.lean ====
section
/-! SUPPORT. The fields of a packed command word, and the operand numbers in and out of a word. -/

namespace Sys2Proof

@[simp] theorem opField_packWord (op : BitVec 8) (b : BitVec 1) (idx imm : Byte) :
    opField (packWord op b idx imm) = op := by
  ext i hi
  simp only [opField, packWord, BitVec.getElem_extractLsb', BitVec.getLsbD_append]
  grind

@[simp] theorem zField_packWord (op : BitVec 8) (b : BitVec 1) (idx imm : Byte) :
    zField (packWord op b idx imm) = 0 := by
  ext i hi
  simp only [zField, packWord, BitVec.getElem_extractLsb', BitVec.getLsbD_append]
  grind

@[simp] theorem bField_packWord (op : BitVec 8) (b : BitVec 1) (idx imm : Byte) :
    bField (packWord op b idx imm) = b := by
  ext i hi
  simp only [bField, packWord, BitVec.getElem_extractLsb', BitVec.getLsbD_append]
  grind

@[simp] theorem idxField_packWord (op : BitVec 8) (b : BitVec 1) (idx imm : Byte) :
    idxField (packWord op b idx imm) = idx := by
  ext i hi
  simp only [idxField, packWord, BitVec.getElem_extractLsb', BitVec.getLsbD_append]
  grind

@[simp] theorem immField_packWord (op : BitVec 8) (b : BitVec 1) (idx imm : Byte) :
    immField (packWord op b idx imm) = imm := by
  ext i hi
  simp only [immField, packWord, BitVec.getElem_extractLsb', BitVec.getLsbD_append]
  grind

/-- A word whose `z` field is zero is put together from its other fields. -/
theorem packWord_fields {cw : Word} (h : zField cw = 0) :
    packWord (opField cw) (bField cw) (idxField cw) (immField cw) = cw := by
  have hz : ∀ i, 17 ≤ i → i < 24 → cw.getLsbD i = false := by
    intro i h1 h2
    have := congrArg (fun v => v.getLsbD (i - 17)) h
    have hi : 17 + (i - 17) = i := by omega
    have hj : i - 17 < 7 := by omega
    simpa [zField, BitVec.getLsbD_extractLsb', hi, hj] using this
  apply BitVec.eq_of_getLsbD_eq
  intro i hi
  simp only [packWord, opField, bField, idxField, immField, BitVec.getLsbD_append, BitVec.getLsbD_extractLsb']
  grind

/-- A word is determined by its five fields (R72). -/
theorem word_eq_of_fields {a b : Word} (hop : opField a = opField b) (hz : zField a = zField b)
    (hb : bField a = bField b) (hidx : idxField a = idxField b) (himm : immField a = immField b) : a = b := by
  have bit : ∀ {w : Nat} (s : Nat), a.extractLsb' s w = b.extractLsb' s w → ∀ i, s ≤ i → i < s + w →
      a.getLsbD i = b.getLsbD i := by
    intro w s h i h1 h2
    have := congrArg (fun v => v.getLsbD (i - s)) h
    have hi : s + (i - s) = i := by omega
    have hj : i - s < w := by omega
    simpa [BitVec.getLsbD_extractLsb', hi, hj] using this
  apply BitVec.eq_of_getLsbD_eq
  intro i hi
  by_cases h1 : i < 8
  · exact bit 0 himm i (by omega) (by omega)
  by_cases h2 : i < 16
  · exact bit 8 hidx i (by omega) (by omega)
  by_cases h3 : i < 17
  · exact bit 16 hb i (by omega) (by omega)
  by_cases h4 : i < 24
  · exact bit 17 hz i (by omega) (by omega)
  · exact bit 24 hop i (by omega) (by omega)

/-- A word under a mask is a pattern exactly when each field is, under the mask's field (R75). -/
theorem and_eq_iff_fields (cw mask pattern : Word) :
    cw &&& mask = pattern ↔
      opField cw &&& opField mask = opField pattern ∧ zField cw &&& zField mask = zField pattern ∧
        bField cw &&& bField mask = bField pattern ∧ idxField cw &&& idxField mask = idxField pattern ∧
          immField cw &&& immField mask = immField pattern := by
  have h : ∀ s w, (cw &&& mask).extractLsb' s w = cw.extractLsb' s w &&& mask.extractLsb' s w :=
    fun s w => BitVec.extractLsb'_and
  constructor
  · rintro rfl
    exact ⟨(h _ _).symm, (h _ _).symm, (h _ _).symm, (h _ _).symm, (h _ _).symm⟩
  · rintro ⟨h1, h2, h3, h4, h5⟩
    exact word_eq_of_fields ((h _ _).trans h1) ((h _ _).trans h2) ((h _ _).trans h3) ((h _ _).trans h4)
      ((h _ _).trans h5)

@[simp] theorem bankOfBit_bitOfBank (b : Bank) : bankOfBit (bitOfBank b) = b := by cases b <;> rfl

@[simp] theorem bitOfBank_bankOfBit (b : BitVec 1) : bitOfBank (bankOfBit b) = b := by
  revert b
  decide

@[simp] theorem idxOfRow_toNat (r : Row) : (idxOfRow r).toNat = r.val := by
  simp only [idxOfRow, BitVec.toNat_ofNat]
  omega

@[simp] theorem idxOfRow_mk (x : Byte) (h : x.toNat < 32) : idxOfRow ⟨x.toNat, h⟩ = x := by simp [idxOfRow]

/-! What each format accepts. -/

theorem decodeZ_ok {cw : Word} {i j : Instr} :
    decodeZ cw i = .ok j ↔ j = i ∧ bField cw = 0 ∧ idxField cw = 0 ∧ immField cw = 0 := by
  unfold decodeZ
  constructor
  · intro h
    split at h
    · exact ⟨by injection h with h; exact h.symm, ‹_›⟩
    · cases h
  · rintro ⟨rfl, hz⟩
    rw [if_pos hz]

theorem decodeR_ok {cw : Word} {f : Row → Instr} {j : Instr} :
    decodeR cw f = .ok j ↔ ∃ r, j = f r ∧ idxField cw = idxOfRow r ∧ bField cw = 0 ∧ immField cw = 0 := by
  unfold decodeR
  constructor
  · intro h
    split at h
    · split at h
      · next hlt hz => exact ⟨_, by injection h with h; exact h.symm, (idxOfRow_mk _ hlt).symm, hz⟩
      · cases h
    · cases h
  · rintro ⟨r, rfl, hidx, hz⟩
    have hlt : (idxField cw).toNat < 32 := by rw [hidx, idxOfRow_toNat]; exact r.isLt
    rw [dif_pos hlt, if_pos hz]
    have hr : (⟨(idxField cw).toNat, hlt⟩ : Row) = r := Fin.ext ((congrArg BitVec.toNat hidx).trans (idxOfRow_toNat r))
    rw [hr]

theorem decodeB_ok {cw : Word} {f : Bank → Instr} {j : Instr} :
    decodeB cw f = .ok j ↔ ∃ b, j = f b ∧ bField cw = bitOfBank b ∧ idxField cw = 0 ∧ immField cw = 0 := by
  unfold decodeB
  constructor
  · intro h
    split at h
    · exact ⟨_, by injection h with h; exact h.symm, (bitOfBank_bankOfBit _).symm, ‹_›⟩
    · cases h
  · rintro ⟨b, rfl, hb, hz⟩
    rw [if_pos hz, hb, bankOfBit_bitOfBank]

theorem decodeX_ok {cw : Word} {f : Bank → Byte → Instr} {j : Instr} :
    decodeX cw f = .ok j ↔ ∃ b x, j = f b x ∧ bField cw = bitOfBank b ∧ idxField cw = x ∧ immField cw = 0 := by
  unfold decodeX
  constructor
  · intro h
    split at h
    · exact ⟨_, _, by injection h with h; exact h.symm, (bitOfBank_bankOfBit _).symm, rfl, ‹_›⟩
    · cases h
  · rintro ⟨b, x, rfl, hb, hx, hz⟩
    rw [if_pos hz, hb, hx, bankOfBit_bitOfBank]

theorem decodeXI_ok {cw : Word} {f : Bank → Byte → Byte → Instr} {j : Instr} :
    decodeXI cw f = .ok j ↔ ∃ b x v, j = f b x v ∧ bField cw = bitOfBank b ∧ idxField cw = x ∧ immField cw = v := by
  unfold decodeXI
  constructor
  · intro h
    exact ⟨_, _, _, by injection h with h; exact h.symm, (bitOfBank_bankOfBit _).symm, rfl, rfl⟩
  · rintro ⟨b, x, v, rfl, hb, hx, hv⟩
    rw [hb, hx, hv, bankOfBit_bitOfBank]

/-- The decoder chooses the format by the opcode; a word it accepts has `z = 0` and one of the twelve opcodes. -/
theorem decode_ok {cw wd : Word} {j : Instr} (h : decode cw wd = .ok j) :
    zField cw = 0 ∧
      ((opField cw = 0x00 ∧ decodeZ cw .nop = .ok j) ∨ (opField cw = 0x01 ∧ decodeZ cw .stat = .ok j) ∨
        (opField cw = 0x02 ∧ decodeZ cw .rst = .ok j) ∨
        (opField cw = 0x10 ∧ decodeR cw (fun r => .mwr r wd) = .ok j) ∨
        (opField cw = 0x11 ∧ decodeR cw .mrd = .ok j) ∨ (opField cw = 0x12 ∧ decodeZ cw .minv = .ok j) ∨
        (opField cw = 0x13 ∧ decodeR cw .ird = .ok j) ∨ (opField cw = 0x20 ∧ decodeXI cw .twr = .ok j) ∨
        (opField cw = 0x21 ∧ decodeX cw .trd = .ok j) ∨ (opField cw = 0x22 ∧ decodeB cw .tbld = .ok j) ∨
        (opField cw = 0x23 ∧ decodeX cw .cls = .ok j) ∨ (opField cw = 0x24 ∧ decodeXI cw .prd = .ok j)) := by
  have key : ∀ {c : Prop} [Decidable c] {a b : Except IllegalCause Instr},
      (if c then a else b) = .ok j → (c ∧ a = .ok j) ∨ (¬ c ∧ b = .ok j) := by
    intro c _ a b h
    split at h
    · exact .inl ⟨‹_›, h⟩
    · exact .inr ⟨‹_›, h⟩
  unfold decode at h
  rcases key h with ⟨_, h⟩ | ⟨hz, h⟩
  · cases h
  refine ⟨by simpa using hz, ?_⟩
  refine (key h).imp id fun h => (key h.2).imp id fun h => (key h.2).imp id fun h => (key h.2).imp id fun h =>
    (key h.2).imp id fun h => (key h.2).imp id fun h => (key h.2).imp id fun h => (key h.2).imp id fun h =>
    (key h.2).imp id fun h => (key h.2).imp id fun h => (key h.2).imp id fun h => (key h.2).resolve_right ?_
  rintro ⟨_, h⟩
  cases h

end Sys2Proof
end

