-- ==== Sys2Proof/Laws/State.lean ====
section
/-! SUPPORT. One lemma for each field of the state and each update of it, so that no proof unfolds a record update; the
banks; and the reset state field by field. -/

namespace Sys2Proof.Machine

/-! Two banks. -/

@[simp] theorem PerBank.get_set_same {α : Type} (p : PerBank α) (b : Bank) (v : α) : (p.set b v).get b = v := by
  cases b <;> rfl

theorem PerBank.get_set_other {α : Type} (p : PerBank α) {b c : Bank} (h : c ≠ b) (v : α) :
    (p.set b v).get c = p.get c := by
  cases b <;> cases c <;> first | rfl | exact absurd rfl h

theorem PerBank.get_set {α : Type} (p : PerBank α) (b c : Bank) (v : α) :
    (p.set b v).get c = if c = b then v else p.get c := by
  cases b <;> cases c <;> rfl

@[simp] theorem PerBank.set_get_self {α : Type} (p : PerBank α) (b : Bank) : p.set b (p.get b) = p := by
  cases b <;> rfl

@[simp] theorem PerBank.set_set {α : Type} (p : PerBank α) (b : Bank) (v w : α) : (p.set b v).set b w = p.set b w := by
  cases b <;> rfl

/-- Two values of both banks that agree bank by bank are equal. -/
theorem PerBank.ext_get {α : Type} {p q : PerBank α} (h : ∀ b, p.get b = q.get b) : p = q := by
  cases p
  cases q
  exact congrArg₂ PerBank.mk (h .even) (h .odd)

/-! The updates. -/

@[simp] theorem State.setRowM_M (s : State) (r : Row) (w : Word) : (s.setRowM r w).M = s.M.set r w := rfl
@[simp] theorem State.setRowM_INV (s : State) (r : Row) (w : Word) : (s.setRowM r w).INV = s.INV := rfl
@[simp] theorem State.setRowM_ISTAT (s : State) (r : Row) (w : Word) : (s.setRowM r w).ISTAT = s.ISTAT := rfl
@[simp] theorem State.setRowM_FCOL (s : State) (r : Row) (w : Word) : (s.setRowM r w).FCOL = s.FCOL := rfl
@[simp] theorem State.setRowM_T (s : State) (r : Row) (w : Word) : (s.setRowM r w).T = s.T := rfl
@[simp] theorem State.setRowM_IR (s : State) (r : Row) (w : Word) : (s.setRowM r w).IR = s.IR := rfl
@[simp] theorem State.setRowM_TBUILT (s : State) (r : Row) (w : Word) : (s.setRowM r w).TBUILT = s.TBUILT := rfl
@[simp] theorem State.setRowM_host (s : State) (r : Row) (w : Word) : (s.setRowM r w).host = s.host := rfl
@[simp] theorem State.setRowM_rsp (s : State) (r : Row) (w : Word) : (s.setRowM r w).rsp = s.rsp := rfl

@[simp] theorem State.setINV_M (s : State) (A : BitMatrix 32) : (s.setINV A).M = s.M := rfl
@[simp] theorem State.setINV_INV (s : State) (A : BitMatrix 32) : (s.setINV A).INV = A := rfl
@[simp] theorem State.setINV_ISTAT (s : State) (A : BitMatrix 32) : (s.setINV A).ISTAT = s.ISTAT := rfl
@[simp] theorem State.setINV_FCOL (s : State) (A : BitMatrix 32) : (s.setINV A).FCOL = s.FCOL := rfl
@[simp] theorem State.setINV_T (s : State) (A : BitMatrix 32) : (s.setINV A).T = s.T := rfl
@[simp] theorem State.setINV_IR (s : State) (A : BitMatrix 32) : (s.setINV A).IR = s.IR := rfl
@[simp] theorem State.setINV_TBUILT (s : State) (A : BitMatrix 32) : (s.setINV A).TBUILT = s.TBUILT := rfl
@[simp] theorem State.setINV_host (s : State) (A : BitMatrix 32) : (s.setINV A).host = s.host := rfl
@[simp] theorem State.setINV_rsp (s : State) (A : BitMatrix 32) : (s.setINV A).rsp = s.rsp := rfl

@[simp] theorem State.setEntryT_M (s : State) (b : Bank) (x v : Byte) : (s.setEntryT b x v).M = s.M := rfl
@[simp] theorem State.setEntryT_INV (s : State) (b : Bank) (x v : Byte) : (s.setEntryT b x v).INV = s.INV := rfl
@[simp] theorem State.setEntryT_ISTAT (s : State) (b : Bank) (x v : Byte) : (s.setEntryT b x v).ISTAT = s.ISTAT := rfl
@[simp] theorem State.setEntryT_FCOL (s : State) (b : Bank) (x v : Byte) : (s.setEntryT b x v).FCOL = s.FCOL := rfl
@[simp] theorem State.setEntryT_T (s : State) (b : Bank) (x v : Byte) :
    (s.setEntryT b x v).T = s.T.set b (tableSet (s.T.get b) x v) := rfl
@[simp] theorem State.setEntryT_IR (s : State) (b : Bank) (x v : Byte) : (s.setEntryT b x v).IR = s.IR := rfl
@[simp] theorem State.setEntryT_TBUILT (s : State) (b : Bank) (x v : Byte) :
    (s.setEntryT b x v).TBUILT = s.TBUILT := rfl
@[simp] theorem State.setEntryT_host (s : State) (b : Bank) (x v : Byte) : (s.setEntryT b x v).host = s.host := rfl
@[simp] theorem State.setEntryT_rsp (s : State) (b : Bank) (x v : Byte) : (s.setEntryT b x v).rsp = s.rsp := rfl

@[simp] theorem State.setIR_M (s : State) (b : Bank) (pre : Relation) : (s.setIR b pre).M = s.M := rfl
@[simp] theorem State.setIR_INV (s : State) (b : Bank) (pre : Relation) : (s.setIR b pre).INV = s.INV := rfl
@[simp] theorem State.setIR_ISTAT (s : State) (b : Bank) (pre : Relation) : (s.setIR b pre).ISTAT = s.ISTAT := rfl
@[simp] theorem State.setIR_FCOL (s : State) (b : Bank) (pre : Relation) : (s.setIR b pre).FCOL = s.FCOL := rfl
@[simp] theorem State.setIR_T (s : State) (b : Bank) (pre : Relation) : (s.setIR b pre).T = s.T := rfl
@[simp] theorem State.setIR_IR (s : State) (b : Bank) (pre : Relation) : (s.setIR b pre).IR = s.IR.set b pre := rfl
@[simp] theorem State.setIR_TBUILT (s : State) (b : Bank) (pre : Relation) : (s.setIR b pre).TBUILT = s.TBUILT := rfl
@[simp] theorem State.setIR_host (s : State) (b : Bank) (pre : Relation) : (s.setIR b pre).host = s.host := rfl
@[simp] theorem State.setIR_rsp (s : State) (b : Bank) (pre : Relation) : (s.setIR b pre).rsp = s.rsp := rfl

@[simp] theorem State.clearInverse_M (s : State) : (s.clearInverse).M = s.M := rfl
@[simp] theorem State.clearInverse_INV (s : State) : (s.clearInverse).INV = s.INV := rfl
@[simp] theorem State.clearInverse_ISTAT (s : State) : (s.clearInverse).ISTAT = .NONE := rfl
@[simp] theorem State.clearInverse_FCOL (s : State) : (s.clearInverse).FCOL = 0 := rfl
@[simp] theorem State.clearInverse_T (s : State) : (s.clearInverse).T = s.T := rfl
@[simp] theorem State.clearInverse_IR (s : State) : (s.clearInverse).IR = s.IR := rfl
@[simp] theorem State.clearInverse_TBUILT (s : State) : (s.clearInverse).TBUILT = s.TBUILT := rfl
@[simp] theorem State.clearInverse_host (s : State) : (s.clearInverse).host = s.host := rfl
@[simp] theorem State.clearInverse_rsp (s : State) : (s.clearInverse).rsp = s.rsp := rfl

@[simp] theorem State.markValid_M (s : State) : (s.markValid).M = s.M := rfl
@[simp] theorem State.markValid_INV (s : State) : (s.markValid).INV = s.INV := rfl
@[simp] theorem State.markValid_ISTAT (s : State) : (s.markValid).ISTAT = .VALID := rfl
@[simp] theorem State.markValid_FCOL (s : State) : (s.markValid).FCOL = 0 := rfl
@[simp] theorem State.markValid_T (s : State) : (s.markValid).T = s.T := rfl
@[simp] theorem State.markValid_IR (s : State) : (s.markValid).IR = s.IR := rfl
@[simp] theorem State.markValid_TBUILT (s : State) : (s.markValid).TBUILT = s.TBUILT := rfl
@[simp] theorem State.markValid_host (s : State) : (s.markValid).host = s.host := rfl
@[simp] theorem State.markValid_rsp (s : State) : (s.markValid).rsp = s.rsp := rfl

@[simp] theorem State.markSingular_M (s : State) (c : Row) : (s.markSingular c).M = s.M := rfl
@[simp] theorem State.markSingular_INV (s : State) (c : Row) : (s.markSingular c).INV = s.INV := rfl
@[simp] theorem State.markSingular_ISTAT (s : State) (c : Row) : (s.markSingular c).ISTAT = .SINGULAR := rfl
@[simp] theorem State.markSingular_FCOL (s : State) (c : Row) : (s.markSingular c).FCOL = colField c := rfl
@[simp] theorem State.markSingular_T (s : State) (c : Row) : (s.markSingular c).T = s.T := rfl
@[simp] theorem State.markSingular_IR (s : State) (c : Row) : (s.markSingular c).IR = s.IR := rfl
@[simp] theorem State.markSingular_TBUILT (s : State) (c : Row) : (s.markSingular c).TBUILT = s.TBUILT := rfl
@[simp] theorem State.markSingular_host (s : State) (c : Row) : (s.markSingular c).host = s.host := rfl
@[simp] theorem State.markSingular_rsp (s : State) (c : Row) : (s.markSingular c).rsp = s.rsp := rfl

@[simp] theorem State.setBuilt_M (s : State) (b : Bank) (v : Bool) : (s.setBuilt b v).M = s.M := rfl
@[simp] theorem State.setBuilt_INV (s : State) (b : Bank) (v : Bool) : (s.setBuilt b v).INV = s.INV := rfl
@[simp] theorem State.setBuilt_ISTAT (s : State) (b : Bank) (v : Bool) : (s.setBuilt b v).ISTAT = s.ISTAT := rfl
@[simp] theorem State.setBuilt_FCOL (s : State) (b : Bank) (v : Bool) : (s.setBuilt b v).FCOL = s.FCOL := rfl
@[simp] theorem State.setBuilt_T (s : State) (b : Bank) (v : Bool) : (s.setBuilt b v).T = s.T := rfl
@[simp] theorem State.setBuilt_IR (s : State) (b : Bank) (v : Bool) : (s.setBuilt b v).IR = s.IR := rfl
@[simp] theorem State.setBuilt_TBUILT (s : State) (b : Bank) (v : Bool) :
    (s.setBuilt b v).TBUILT = s.TBUILT.set b v := rfl
@[simp] theorem State.setBuilt_host (s : State) (b : Bank) (v : Bool) : (s.setBuilt b v).host = s.host := rfl
@[simp] theorem State.setBuilt_rsp (s : State) (b : Bank) (v : Bool) : (s.setBuilt b v).rsp = s.rsp := rfl

@[simp] theorem State.withResponse_M (s : State) (code : RCode) (data : Word) :
    (s.withResponse code data).M = s.M := rfl
@[simp] theorem State.withResponse_INV (s : State) (code : RCode) (data : Word) :
    (s.withResponse code data).INV = s.INV := rfl
@[simp] theorem State.withResponse_ISTAT (s : State) (code : RCode) (data : Word) :
    (s.withResponse code data).ISTAT = s.ISTAT := rfl
@[simp] theorem State.withResponse_FCOL (s : State) (code : RCode) (data : Word) :
    (s.withResponse code data).FCOL = s.FCOL := rfl
@[simp] theorem State.withResponse_T (s : State) (code : RCode) (data : Word) :
    (s.withResponse code data).T = s.T := rfl
@[simp] theorem State.withResponse_IR (s : State) (code : RCode) (data : Word) :
    (s.withResponse code data).IR = s.IR := rfl
@[simp] theorem State.withResponse_TBUILT (s : State) (code : RCode) (data : Word) :
    (s.withResponse code data).TBUILT = s.TBUILT := rfl
@[simp] theorem State.withResponse_host (s : State) (code : RCode) (data : Word) :
    (s.withResponse code data).host = s.host := rfl
@[simp] theorem State.withResponse_rsp (s : State) (code : RCode) (data : Word) :
    (s.withResponse code data).rsp = some ⟨code, data⟩ := rfl

@[simp] theorem State.resetBlock_M (s : State) : (s.resetBlock).M = State.reset.M := rfl
@[simp] theorem State.resetBlock_INV (s : State) : (s.resetBlock).INV = State.reset.INV := rfl
@[simp] theorem State.resetBlock_ISTAT (s : State) : (s.resetBlock).ISTAT = State.reset.ISTAT := rfl
@[simp] theorem State.resetBlock_FCOL (s : State) : (s.resetBlock).FCOL = State.reset.FCOL := rfl
@[simp] theorem State.resetBlock_T (s : State) : (s.resetBlock).T = State.reset.T := rfl
@[simp] theorem State.resetBlock_IR (s : State) : (s.resetBlock).IR = State.reset.IR := rfl
@[simp] theorem State.resetBlock_TBUILT (s : State) : (s.resetBlock).TBUILT = State.reset.TBUILT := rfl
@[simp] theorem State.resetBlock_host (s : State) : (s.resetBlock).host = s.host := rfl
@[simp] theorem State.resetBlock_rsp (s : State) : (s.resetBlock).rsp = s.rsp := rfl

@[simp] theorem State.accept_M (s : State) (rest : List HostEvent) : (s.accept rest).M = s.M := rfl
@[simp] theorem State.accept_INV (s : State) (rest : List HostEvent) : (s.accept rest).INV = s.INV := rfl
@[simp] theorem State.accept_ISTAT (s : State) (rest : List HostEvent) : (s.accept rest).ISTAT = s.ISTAT := rfl
@[simp] theorem State.accept_FCOL (s : State) (rest : List HostEvent) : (s.accept rest).FCOL = s.FCOL := rfl
@[simp] theorem State.accept_T (s : State) (rest : List HostEvent) : (s.accept rest).T = s.T := rfl
@[simp] theorem State.accept_IR (s : State) (rest : List HostEvent) : (s.accept rest).IR = s.IR := rfl
@[simp] theorem State.accept_TBUILT (s : State) (rest : List HostEvent) : (s.accept rest).TBUILT = s.TBUILT := rfl
@[simp] theorem State.accept_host (s : State) (rest : List HostEvent) : (s.accept rest).host = rest := rfl
@[simp] theorem State.accept_rsp (s : State) (rest : List HostEvent) : (s.accept rest).rsp = s.rsp := rfl

@[simp] theorem State.present_M (s : State) (c : Command) : (s.present c).M = s.M := rfl
@[simp] theorem State.present_INV (s : State) (c : Command) : (s.present c).INV = s.INV := rfl
@[simp] theorem State.present_ISTAT (s : State) (c : Command) : (s.present c).ISTAT = s.ISTAT := rfl
@[simp] theorem State.present_FCOL (s : State) (c : Command) : (s.present c).FCOL = s.FCOL := rfl
@[simp] theorem State.present_T (s : State) (c : Command) : (s.present c).T = s.T := rfl
@[simp] theorem State.present_IR (s : State) (c : Command) : (s.present c).IR = s.IR := rfl
@[simp] theorem State.present_TBUILT (s : State) (c : Command) : (s.present c).TBUILT = s.TBUILT := rfl
@[simp] theorem State.present_host (s : State) (c : Command) : (s.present c).host = .command c :: s.host := rfl
@[simp] theorem State.present_rsp (s : State) (c : Command) : (s.present c).rsp = s.rsp := rfl

@[simp] theorem State.presentAll_M (s : State) (cs : List Command) : (s.presentAll cs).M = s.M := rfl
@[simp] theorem State.presentAll_INV (s : State) (cs : List Command) : (s.presentAll cs).INV = s.INV := rfl
@[simp] theorem State.presentAll_ISTAT (s : State) (cs : List Command) : (s.presentAll cs).ISTAT = s.ISTAT := rfl
@[simp] theorem State.presentAll_FCOL (s : State) (cs : List Command) : (s.presentAll cs).FCOL = s.FCOL := rfl
@[simp] theorem State.presentAll_T (s : State) (cs : List Command) : (s.presentAll cs).T = s.T := rfl
@[simp] theorem State.presentAll_IR (s : State) (cs : List Command) : (s.presentAll cs).IR = s.IR := rfl
@[simp] theorem State.presentAll_TBUILT (s : State) (cs : List Command) : (s.presentAll cs).TBUILT = s.TBUILT := rfl
@[simp] theorem State.presentAll_host (s : State) (cs : List Command) :
    (s.presentAll cs).host = cs.map .command ++ s.host := rfl
@[simp] theorem State.presentAll_rsp (s : State) (cs : List Command) : (s.presentAll cs).rsp = s.rsp := rfl

/-! The reset state (R34). -/

@[simp] theorem State.reset_M : State.reset.M = zeroMatrix := rfl
@[simp] theorem State.reset_INV : State.reset.INV = zeroMatrix := rfl
@[simp] theorem State.reset_ISTAT : State.reset.ISTAT = .NONE := rfl
@[simp] theorem State.reset_FCOL : State.reset.FCOL = 0 := rfl
@[simp] theorem State.reset_T : State.reset.T = ⟨zeroTable, zeroTable⟩ := rfl
@[simp] theorem State.reset_IR : State.reset.IR = ⟨resetRelation, resetRelation⟩ := rfl
@[simp] theorem State.reset_TBUILT : State.reset.TBUILT = ⟨false, false⟩ := rfl
@[simp] theorem State.reset_host : State.reset.host = [] := rfl
@[simp] theorem State.reset_rsp : State.reset.rsp = none := rfl

/-- The command presented by `withFetchWord` (R70). -/
theorem State.withFetchWord_eq (s : State) (nbits w : Nat) : s.withFetchWord nbits w = s.present (commandOfBits nbits w) :=
  rfl

/-! The one element a write changes, read back. -/

@[simp] theorem State.setRowM_rowM (s : State) (r r' : Row) (w : Word) :
    (s.setRowM r w).rowM r' = if r = r' then w else s.rowM r' := by
  simp [State.rowM, Vector.getElem_set, Fin.ext_iff]

theorem tableAt_tableSet (t : Table) (x x' v : Byte) :
    tableAt (tableSet t x v) x' = if x = x' then v else tableAt t x' := by
  simp [tableAt, tableSet, Vector.getElem_set, BitVec.toNat_inj]

@[simp] theorem State.setEntryT_entryT_same (s : State) (b : Bank) (x x' v : Byte) :
    (s.setEntryT b x v).entryT b x' = if x = x' then v else s.entryT b x' := by
  simp [State.entryT, tableAt_tableSet]

theorem State.setEntryT_entryT_other (s : State) {b c : Bank} (h : c ≠ b) (x x' v : Byte) :
    (s.setEntryT b x v).entryT c x' = s.entryT c x' := by
  simp [State.entryT, PerBank.get_set_other _ h]

end Sys2Proof.Machine
end

