-- ==== Sys2Proof/Laws/Exec.lean ====
section
/-! SUPPORT. What the shared operations and each meaning answer, case by case: later proofs cite these and do not
unfold the meanings; and the step on a command that is presented. -/

namespace Sys2Proof.Machine

@[simp] theorem respond_eq (code : RCode) (data : Word) (s : State) :
    respond code data s = .next (s.withResponse code data) := rfl

@[simp] theorem raise_eq (e : RCode) (info : Word) (s : State) : raise e info s = .next (s.withResponse e info) := rfl

@[simp] theorem raiseIllegal_eq (s : State) : raiseIllegal s = .next (s.withResponse .ERR_ILLEGAL 0) := rfl

theorem withResponse_eq (s : State) (code : RCode) (data : Word) :
    s.withResponse code data = { s with rsp := some ⟨code, data⟩ } := rfl

/-- The next state of an outcome is one state. -/
theorem next_injective {s t : State} (h : (.next s : Result) = .next t) : s = t := by
  cases h
  rfl

/-! The meanings. -/

@[simp] theorem exec_nop (s : State) : exec .nop s = .next (s.withResponse .OK 0) := rfl

@[simp] theorem exec_stat (s : State) : exec .stat s = .next (s.withResponse .OK s.statusWord) := rfl

@[simp] theorem exec_rst (s : State) : exec .rst s = .next (s.resetBlock.withResponse .OK 0) := rfl

@[simp] theorem exec_mwr (s : State) (r : Row) (wd : Word) :
    exec (.mwr r wd) s = .next ((s.setRowM r wd).clearInverse.withResponse .OK 0) := rfl

@[simp] theorem exec_mrd (s : State) (r : Row) : exec (.mrd r) s = .next (s.withResponse .OK (s.rowM r)) := rfl

theorem exec_minv_ok {s : State} {A : BitMatrix 32} (h : gf2Invert s.M = .ok A) :
    exec .minv s = .next ((s.setINV A).markValid.withResponse .OK 0) := by
  simp [exec, execMinv, finishInvert, h]

theorem exec_minv_singular {s : State} {c : Row} (h : gf2Invert s.M = .singular c) :
    exec .minv s = .next ((s.markSingular c).withResponse .ERR_SINGULAR (zextCol (colField c))) := by
  simp [exec, execMinv, finishInvert, h]

theorem exec_ird_none {s : State} (h : s.ISTAT = .NONE) (r : Row) :
    exec (.ird r) s = .next (s.withResponse .ERR_NOTREADY 0) := by
  simp [exec, execIrd, h]

theorem exec_ird_singular {s : State} (h : s.ISTAT = .SINGULAR) (r : Row) :
    exec (.ird r) s = .next (s.withResponse .ERR_SINGULAR (zextCol s.FCOL)) := by
  simp [exec, execIrd, h]

theorem exec_ird_valid {s : State} (h : s.ISTAT = .VALID) (r : Row) :
    exec (.ird r) s = .next (s.withResponse .OK (s.rowINV r)) := by
  simp [exec, execIrd, h]

@[simp] theorem exec_twr (s : State) (b : Bank) (x v : Byte) :
    exec (.twr b x v) s = .next (((s.setEntryT b x v).setBuilt b false).withResponse .OK 0) := rfl

@[simp] theorem exec_trd (s : State) (b : Bank) (x : Byte) :
    exec (.trd b x) s = .next (s.withResponse .OK (zextByte (s.entryT b x))) := rfl

@[simp] theorem exec_tbld (s : State) (b : Bank) :
    exec (.tbld b) s = .next (((s.setIR b (buildInverse (s.T.get b))).setBuilt b true).withResponse .OK 0) := rfl

theorem exec_cls_built {s : State} {b : Bank} (h : s.TBUILT.get b = true) (y : Byte) :
    exec (.cls b y) s = .next (s.withResponse .OK (annot (s.listIR b y))) := by
  simp [exec, execCls, h]

theorem exec_cls_notBuilt {s : State} {b : Bank} (h : s.TBUILT.get b = false) (y : Byte) :
    exec (.cls b y) s = .next (s.withResponse .ERR_NOTREADY 0) := by
  simp [exec, execCls, h]

theorem exec_prd_built {s : State} {b : Bank} (h : s.TBUILT.get b = true) {y k : Byte}
    (hk : k.toNat < (s.listIR b y).length) :
    exec (.prd b y k) s = .next (s.withResponse .OK (zextByte (s.listIR b y)[k.toNat])) := by
  simp [exec, execPrd, h, List.getElem?_eq_getElem hk]

theorem exec_prd_range {s : State} {b : Bank} (h : s.TBUILT.get b = true) {y k : Byte}
    (hk : (s.listIR b y).length ≤ k.toNat) :
    exec (.prd b y k) s = .next (s.withResponse .ERR_RANGE (zextLen (s.listIR b y).length)) := by
  simp [exec, execPrd, h, List.getElem?_eq_none hk]

theorem exec_prd_notBuilt {s : State} {b : Bank} (h : s.TBUILT.get b = false) (y k : Byte) :
    exec (.prd b y k) s = .next (s.withResponse .ERR_NOTREADY 0) := by
  simp [exec, execPrd, h]

/-- Said once: a command answers a next state, which differs from `s` by the writes of its own kind and by the
response. -/
theorem exec_cases (i : Instr) (s : State) :
    (∃ code data, exec i s = .next (s.withResponse code data) ∧ (isRead i = true)) ∨
    (i = .rst ∧ exec i s = .next (s.resetBlock.withResponse .OK 0)) ∨
    (∃ r wd, i = .mwr r wd ∧ exec i s = .next ((s.setRowM r wd).clearInverse.withResponse .OK 0)) ∨
    (i = .minv ∧ ∃ A, gf2Invert s.M = .ok A ∧ exec i s = .next ((s.setINV A).markValid.withResponse .OK 0)) ∨
    (i = .minv ∧ ∃ c, gf2Invert s.M = .singular c ∧
      exec i s = .next ((s.markSingular c).withResponse .ERR_SINGULAR (zextCol (colField c)))) ∨
    (∃ b x v, i = .twr b x v ∧
      exec i s = .next (((s.setEntryT b x v).setBuilt b false).withResponse .OK 0)) ∨
    (∃ b, i = .tbld b ∧
      exec i s = .next (((s.setIR b (buildInverse (s.T.get b))).setBuilt b true).withResponse .OK 0)) := by
  cases i with
  | nop => exact .inl ⟨_, _, rfl, rfl⟩
  | stat => exact .inl ⟨_, _, rfl, rfl⟩
  | rst => exact .inr (.inl ⟨rfl, rfl⟩)
  | mwr r wd => exact .inr (.inr (.inl ⟨r, wd, rfl, rfl⟩))
  | mrd r => exact .inl ⟨_, _, rfl, rfl⟩
  | minv =>
    cases h : gf2Invert s.M with
    | ok A => exact .inr (.inr (.inr (.inl ⟨rfl, A, rfl, exec_minv_ok h⟩)))
    | singular c => exact .inr (.inr (.inr (.inr (.inl ⟨rfl, c, rfl, exec_minv_singular h⟩))))
  | ird r =>
    cases h : s.ISTAT with
    | NONE => exact .inl ⟨_, _, exec_ird_none h r, rfl⟩
    | VALID => exact .inl ⟨_, _, exec_ird_valid h r, rfl⟩
    | SINGULAR => exact .inl ⟨_, _, exec_ird_singular h r, rfl⟩
  | twr b x v => exact .inr (.inr (.inr (.inr (.inr (.inl ⟨b, x, v, rfl, rfl⟩)))))
  | trd b x => exact .inl ⟨_, _, rfl, rfl⟩
  | tbld b => exact .inr (.inr (.inr (.inr (.inr (.inr ⟨b, rfl, rfl⟩)))))
  | cls b y =>
    cases h : s.TBUILT.get b with
    | true => exact .inl ⟨_, _, exec_cls_built h y, rfl⟩
    | false => exact .inl ⟨_, _, exec_cls_notBuilt h y, rfl⟩
  | prd b y k =>
    cases h : s.TBUILT.get b with
    | true =>
      by_cases hk : k.toNat < (s.listIR b y).length
      · exact .inl ⟨_, _, exec_prd_built h hk, rfl⟩
      · exact .inl ⟨_, _, exec_prd_range h (Nat.le_of_not_lt hk), rfl⟩
    | false => exact .inl ⟨_, _, exec_prd_notBuilt h y k, rfl⟩

/-- A command answers a next state, with one response, and takes nothing more from the host. -/
theorem exec_answers (i : Instr) (s : State) : ∃ t r, exec i s = .next t ∧ t.host = s.host ∧ t.rsp = some r := by
  rcases exec_cases i s with ⟨_, _, h, _⟩ | ⟨_, h⟩ | ⟨_, _, _, h⟩ | ⟨_, _, _, h⟩ | ⟨_, _, _, h⟩ | ⟨_, _, _, _, h⟩ |
      ⟨_, _, h⟩ <;>
    exact ⟨_, _, h, rfl, rfl⟩

/-- The ports play no part in what a command does: it answers the same from a state that differs in them only, with
what the host has still to present left as it is there. -/
theorem exec_port {i : Instr} {s t : State} (h : exec i s = .next t) (e : List HostEvent) (r : Option Response) :
    exec i { s with host := e, rsp := r } = .next { t with host := e } := by
  have key : ∀ {c : RCode} {d : Word} {x : State}, exec i s = .next (x.withResponse c d) →
      t = x.withResponse c d := fun h' => by rw [h'] at h; exact (next_injective h).symm
  cases i with
  | minv =>
    cases hA : gf2Invert s.M with
    | ok A => rw [key (exec_minv_ok hA)]; exact exec_minv_ok (s := { s with host := e, rsp := r }) hA
    | singular c => rw [key (exec_minv_singular hA)]; exact exec_minv_singular (s := { s with host := e, rsp := r }) hA
  | ird q =>
    have hI : s.ISTAT = .NONE ∨ s.ISTAT = .VALID ∨ s.ISTAT = .SINGULAR := by cases s.ISTAT <;> simp
    rcases hI with hI | hI | hI
    · rw [key (exec_ird_none hI q)]; exact exec_ird_none (s := { s with host := e, rsp := r }) hI q
    · rw [key (exec_ird_valid hI q)]; exact exec_ird_valid (s := { s with host := e, rsp := r }) hI q
    · rw [key (exec_ird_singular hI q)]; exact exec_ird_singular (s := { s with host := e, rsp := r }) hI q
  | cls b y =>
    cases hB : s.TBUILT.get b with
    | true => rw [key (exec_cls_built hB y)]; exact exec_cls_built (s := { s with host := e, rsp := r }) hB y
    | false => rw [key (exec_cls_notBuilt hB y)]; exact exec_cls_notBuilt (s := { s with host := e, rsp := r }) hB y
  | prd b y k =>
    cases hB : s.TBUILT.get b with
    | true =>
      by_cases hk : k.toNat < (s.listIR b y).length
      · rw [key (exec_prd_built hB hk)]; exact exec_prd_built (s := { s with host := e, rsp := r }) hB hk
      · rw [key (exec_prd_range hB (Nat.le_of_not_lt hk))]
        exact exec_prd_range (s := { s with host := e, rsp := r }) hB (Nat.le_of_not_lt hk)
    | false =>
      rw [key (exec_prd_notBuilt hB y k)]; exact exec_prd_notBuilt (s := { s with host := e, rsp := r }) hB y k
  | _ => cases h; rfl

/-! The step. -/

theorem step_present_ok {s : State} {c : Command} {i : Instr} (hd : decode c.cw c.wd = .ok i) :
    step (s.present c) = exec i s := by
  simp only [step, State.present_host, hd]
  rfl

theorem step_present_error {s : State} {c : Command} {e : IllegalCause} (hd : decode c.cw c.wd = .error e) :
    step (s.present c) = .next (s.withResponse .ERR_ILLEGAL 0) := by
  simp only [step, State.present_host, hd]
  rfl

/-- A command that is presented is taken and answered. -/
theorem step_present_answers (s : State) (c : Command) :
    ∃ t r, step (s.present c) = .next t ∧ t.host = s.host ∧ t.rsp = some r := by
  cases hd : decode c.cw c.wd with
  | ok i => rw [step_present_ok hd]; exact exec_answers i s
  | error e => exact ⟨_, _, step_present_error hd, rfl, rfl⟩

/-- Said once: what a step can do. -/
theorem step_cases (s : State) :
    (s.host = [] ∧ step s = .next { s with rsp := none }) ∨
    (∃ inFlight rest, s.host = .reset inFlight :: rest ∧
      step s = .next { (s.accept rest).resetBlock with rsp := none }) ∨
    (∃ c rest i, s.host = .command c :: rest ∧ decode c.cw c.wd = .ok i ∧ step s = exec i (s.accept rest)) ∨
    (∃ c rest e, s.host = .command c :: rest ∧ decode c.cw c.wd = .error e ∧
      step s = .next ((s.accept rest).withResponse .ERR_ILLEGAL 0)) := by
  cases h : s.host with
  | nil => exact .inl ⟨rfl, by simp only [step, h]; simp only [idle, ← h]⟩
  | cons e rest =>
    cases e with
    | reset f => exact .inr (.inl ⟨f, rest, rfl, by simp only [step, h]; rfl⟩)
    | command c =>
      cases hd : decode c.cw c.wd with
      | ok i => exact .inr (.inr (.inl ⟨c, rest, i, rfl, hd, by simp only [step, h, hd]⟩))
      | error e => exact .inr (.inr (.inr ⟨c, rest, e, rfl, hd, by simp only [step, h, hd]; rfl⟩))

end Sys2Proof.Machine
end

