-- ==== Sys2Proof/Laws/Gf2.lean ====
section
/-! SUPPORT. What one column step of the elimination does to each row, what the pivot search finds, the linearity of
row selection and parity, and the bridge from bit matrices to matrices over `ZMod 2`. -/

namespace Sys2Proof.Machine

variable {n : Nat}

/-! Rows of the buffers. -/

@[simp] theorem identityMatrix_row (i : Fin n) : (identityMatrix n)[i] = 1#n <<< i.val := by
  simp [identityMatrix]

theorem swapRows_row (X : BitMatrix n) (i j r : Fin n) :
    (swapRows X i j)[r] = if r = j then X[i] else if r = i then X[j] else X[r] := by
  simp only [swapRows, Fin.getElem_fin, Vector.getElem_set, Fin.ext_iff]
  grind

theorem addPivotRow_L (c : Fin n) (B : Buffers n) (r i : Fin n) :
    (addPivotRow c B r).L[i] =
      if i = r ∧ r ≠ c ∧ entry B.L r c = true then B.L[i] ^^^ B.L[c] else B.L[i] := by
  unfold addPivotRow
  split <;> simp only [Fin.getElem_fin, Vector.getElem_set, Fin.ext_iff] <;> grind

theorem addPivotRow_A (c : Fin n) (B : Buffers n) (r i : Fin n) :
    (addPivotRow c B r).A[i] =
      if i = r ∧ r ≠ c ∧ entry B.L r c = true then B.A[i] ^^^ B.A[c] else B.A[i] := by
  unfold addPivotRow
  split <;> simp only [Fin.getElem_fin, Vector.getElem_set, Fin.ext_iff] <;> grind

/-- The row additions over any list of distinct rows: each row listed is changed at most once, and row `c` never, so
the order does not matter (R115). -/
theorem foldl_addPivotRow_rows (c : Fin n) (rs : List (Fin n)) (hrs : rs.Nodup) (B : Buffers n) (i : Fin n) :
    (rs.foldl (addPivotRow c) B).L[i] =
        (if i ∈ rs ∧ i ≠ c ∧ entry B.L i c = true then B.L[i] ^^^ B.L[c] else B.L[i]) ∧
      (rs.foldl (addPivotRow c) B).A[i] =
        (if i ∈ rs ∧ i ≠ c ∧ entry B.L i c = true then B.A[i] ^^^ B.A[c] else B.A[i]) := by
  induction rs generalizing B with
  | nil => simp
  | cons r rs ih =>
    have hr := (List.nodup_cons.mp hrs).1
    have ⟨hL, hA⟩ := ih (List.nodup_cons.mp hrs).2 (addPivotRow c B r)
    rw [List.foldl_cons, hL, hA]
    simp only [entry, addPivotRow_L, addPivotRow_A]
    by_cases hi : i = r
    · subst hi
      simp [hr]
    · have hc : ∀ h : c = r, ¬ (r ≠ c) := fun h h' => h' h.symm
      simp only [List.mem_cons, hi, false_or, false_and, if_false]
      by_cases hcr : c = r
      · simp [hc hcr]
      · simp [hcr]

/-- Row `i` of the working copy after the row additions of column step `c` (R106). -/
theorem eliminate_L (c : Fin n) (B : Buffers n) (i : Fin n) :
    (eliminate c B).L[i] = if i ≠ c ∧ entry B.L i c = true then B.L[i] ^^^ B.L[c] else B.L[i] := by
  unfold eliminate
  simpa only [List.mem_finRange, true_and] using (foldl_addPivotRow_rows c _ (List.nodup_finRange n) B i).1

/-- Row `i` of the augmentation after the row additions of column step `c` (R106). -/
theorem eliminate_A (c : Fin n) (B : Buffers n) (i : Fin n) :
    (eliminate c B).A[i] = if i ≠ c ∧ entry B.L i c = true then B.A[i] ^^^ B.A[c] else B.A[i] := by
  unfold eliminate
  simpa only [List.mem_finRange, true_and] using (foldl_addPivotRow_rows c _ (List.nodup_finRange n) B i).2

/-! The pivot search. -/

/-- The row found is at or after row `c`, has bit `c` set, and is the first such row (R106). -/
theorem pivotRow_some {L : BitMatrix n} {c p : Fin n} (h : pivotRow L c = some p) :
    c ≤ p ∧ entry L p c = true ∧ ∀ r, c ≤ r → r < p → entry L r c = false := by
  unfold pivotRow at h
  obtain ⟨hp, as, bs, hab, has⟩ := List.find?_eq_some_iff_append.mp h
  simp only [Bool.and_eq_true, decide_eq_true_eq] at hp
  refine ⟨hp.1, hp.2, fun r hr hrp => ?_⟩
  have hs : (List.finRange n).Pairwise (· < ·) := List.pairwise_lt_finRange n
  rw [hab] at hs
  have hmem : r ∈ as := by
    have hr' : r ∈ as ++ p :: bs := hab ▸ List.mem_finRange r
    rcases List.mem_append.mp hr' with h1 | h1
    · exact h1
    · rcases List.mem_cons.mp h1 with h2 | h2
      · exact absurd h2 (ne_of_lt hrp)
      · have := (List.pairwise_cons.mp (List.pairwise_append.mp hs).2.1).1 r h2
        exact absurd this (not_lt.mpr hrp.le)
  have := has r hmem
  simpa [hr] using this

/-- When the search fails, no row at or after row `c` has bit `c` set (R106). -/
theorem pivotRow_none {L : BitMatrix n} {c : Fin n} (h : pivotRow L c = none) (r : Fin n) (hr : c ≤ r) :
    entry L r c = false := by
  have := List.find?_eq_none.mp h r (List.mem_finRange r)
  simpa [hr] using this

/-- One column step unfolded: the pivot exists and the remaining columns go on from the eliminated buffers. -/
theorem columnSteps_cons_ok {c : Fin n} {cs : List (Fin n)} {B B' : Buffers n}
    (h : columnSteps (c :: cs) B = .ok B') :
    ∃ p, pivotRow B.L c = some p ∧ columnSteps cs (eliminate c (swapBoth B c p)) = .ok B' := by
  unfold columnSteps at h
  split at h
  · cases h
  · exact ⟨_, ‹_›, h⟩

/-- A failing run stops at this column or at a later one. -/
theorem columnSteps_cons_error {c k : Fin n} {cs : List (Fin n)} {B : Buffers n}
    (h : columnSteps (c :: cs) B = .error k) :
    (k = c ∧ pivotRow B.L c = none) ∨
      ∃ p, pivotRow B.L c = some p ∧ columnSteps cs (eliminate c (swapBoth B c p)) = .error k := by
  unfold columnSteps at h
  split at h
  · exact .inl ⟨by injection h with h; exact h.symm, ‹_›⟩
  · exact .inr ⟨_, ‹_›, h⟩

theorem gf2Invert_ok_iff {X A : BitMatrix n} :
    gf2Invert X = .ok A ↔ ∃ B, columnSteps (List.finRange n) (startBuffers X) = .ok B ∧ B.A = A := by
  unfold gf2Invert
  split <;> simp_all

theorem gf2Invert_singular_iff {X : BitMatrix n} {c : Fin n} :
    gf2Invert X = .singular c ↔ columnSteps (List.finRange n) (startBuffers X) = .error c := by
  unfold gf2Invert
  split <;> simp_all

/-! Linearity. -/

theorem foldl_xor_shift (f : Fin n → Bool) (l : List (Fin n)) (p : Bool) :
    l.foldl (fun p j => p ^^ f j) p = (p ^^ l.foldl (fun p j => p ^^ f j) false) := by
  induction l generalizing p with
  | nil => simp
  | cons j l ih => rw [List.foldl_cons, List.foldl_cons, ih, ih (false ^^ f j)]; simp

theorem xorOver_xor (f g : Fin n → Bool) : xorOver (fun k => f k ^^ g k) = (xorOver f ^^ xorOver g) := by
  unfold xorOver
  induction List.finRange n with
  | nil => rfl
  | cons j l ih =>
    simp only [List.foldl_cons, Bool.false_xor]
    rw [foldl_xor_shift _ l (f j ^^ g j), ih, foldl_xor_shift _ l (f j), foldl_xor_shift _ l (g j)]
    cases f j <;> cases g j <;> simp

@[simp] theorem xorOver_false : xorOver (fun _ : Fin n => false) = false := by
  unfold xorOver
  induction List.finRange n with
  | nil => rfl
  | cons j l ih => simpa only [List.foldl_cons, Bool.xor_false] using ih

/-- Over a single index the exclusive or is the one value. -/
theorem xorOver_single (f : Fin n → Bool) (k : Fin n) (h : ∀ j, j ≠ k → f j = false) : xorOver f = f k := by
  have key : ∀ l : List (Fin n), l.Nodup → l.foldl (fun p j => p ^^ f j) false = (decide (k ∈ l) && f k) := by
    intro l hl
    induction l with
    | nil => simp
    | cons j l ih =>
      have ⟨hj, hl'⟩ := List.nodup_cons.mp hl
      rw [List.foldl_cons, foldl_xor_shift, ih hl']
      by_cases hjk : j = k
      · subst hjk; simp [hj]
      · simp [h j hjk, Ne.symm hjk]
  simpa [xorOver] using key _ (List.nodup_finRange n)

/-- In `ZMod 2` the exclusive or is the sum. -/
theorem xorOver_eq_sum (f : Fin n → Bool) :
    (if xorOver f then 1 else 0 : ZMod 2) = ∑ k, if f k then 1 else 0 := by
  have key : ∀ l : List (Fin n), (if l.foldl (fun p j => p ^^ f j) false then 1 else 0 : ZMod 2) =
      (l.map fun k => (if f k then 1 else 0 : ZMod 2)).sum := by
    intro l
    induction l with
    | nil => simp
    | cons j l ih =>
      rw [List.foldl_cons, foldl_xor_shift, List.map_cons, List.sum_cons, ← ih]
      cases f j <;> cases l.foldl (fun p j => p ^^ f j) false <;> decide
  rw [xorOver, key, Fin.sum_univ_def]

theorem parity_xor (a b : BitVec n) : parity (a ^^^ b) = (parity a ^^ parity b) := by
  simp only [parity, BitVec.getLsbD_xor, xorOver_xor]

@[simp] theorem parity_zero : parity (0#n) = false := by simp [parity]

/-- The bits of a row selection: the parity over the rows selected. -/
theorem selectRows_getLsbD (x : BitVec n) (Y : BitMatrix n) (j : Nat) :
    (selectRows x Y).getLsbD j = xorOver fun k : Fin n => x.getLsbD k.val && (Y[k]).getLsbD j := by
  have key : ∀ (l : List (Fin n)) (z : BitVec n),
      (l.foldl (fun z k => if x.getLsbD k.val then z ^^^ Y[k] else z) z).getLsbD j =
        l.foldl (fun p k => p ^^ (x.getLsbD k.val && (Y[k]).getLsbD j)) (z.getLsbD j) := by
    intro l
    induction l with
    | nil => intro z; rfl
    | cons k l ih =>
      intro z
      rw [List.foldl_cons, List.foldl_cons, ih]
      congr 1
      cases x.getLsbD k.val <;> simp
  rw [selectRows, xorOver, key, BitVec.getLsbD_zero]

/-- Row selection is linear in the row. -/
theorem selectRows_xor (a b : BitVec n) (Y : BitMatrix n) :
    selectRows (a ^^^ b) Y = selectRows a Y ^^^ selectRows b Y := by
  apply BitVec.eq_of_getLsbD_eq
  intro j _
  rw [BitVec.getLsbD_xor, selectRows_getLsbD, selectRows_getLsbD, selectRows_getLsbD, ← xorOver_xor]
  congr 1
  funext k
  rw [BitVec.getLsbD_xor]
  cases a.getLsbD k.val <;> cases b.getLsbD k.val <;> simp

/-- The row with the single bit `i` selects row `i`. -/
theorem selectRows_single (i : Fin n) (Y : BitMatrix n) : selectRows (1#n <<< i.val) Y = Y[i] := by
  apply BitVec.eq_of_getLsbD_eq
  intro j _
  have hbit : ∀ k : Fin n, (1#n <<< i.val).getLsbD k.val = decide (k = i) := by
    intro k
    rw [← BitVec.twoPow_eq, BitVec.getLsbD_twoPow]
    simp [Fin.ext_iff, eq_comm]
  rw [selectRows_getLsbD, xorOver_single _ i (fun k hk => by simp only [hbit, hk]; simp), hbit]
  simp

/-! The same matrices over `ZMod 2`. -/

/-- The matrix over `ZMod 2` with the entries of a bit matrix. -/
def toZMod (X : BitMatrix n) : Matrix (Fin n) (Fin n) (ZMod 2) := fun i j => if entry X i j then 1 else 0

/-- The vector over `ZMod 2` with the bits of a word. -/
def vecZMod (v : BitVec n) : Fin n → ZMod 2 := fun j => if v.getLsbD j.val then 1 else 0

theorem ite_and_eq_mul (a b : Bool) :
    (if (a && b) = true then 1 else 0 : ZMod 2) = (if a = true then 1 else 0) * (if b = true then 1 else 0) := by
  cases a <;> cases b <;> decide

theorem vecZMod_inj {u v : BitVec n} (h : vecZMod u = vecZMod v) : u = v := by
  apply BitVec.eq_of_getLsbD_eq
  intro j hj
  have := congrFun h ⟨j, hj⟩
  simp only [vecZMod] at this
  cases hu : u.getLsbD j <;> cases hv : v.getLsbD j <;> simp_all

theorem toZMod_inj {X Y : BitMatrix n} (h : toZMod X = toZMod Y) : X = Y := by
  apply Vector.ext
  intro i hi
  exact vecZMod_inj (congrFun h ⟨i, hi⟩)

theorem toZMod_identityMatrix : toZMod (identityMatrix n) = 1 := by
  funext i j
  rw [toZMod, Matrix.one_apply, entry, identityMatrix_row, ← BitVec.twoPow_eq, BitVec.getLsbD_twoPow]
  simp [Fin.ext_iff]

theorem toZMod_matMul (X Y : BitMatrix n) : toZMod (matMul X Y) = toZMod X * toZMod Y := by
  funext i j
  rw [Matrix.mul_apply]
  have hrow : (matMul X Y)[i] = selectRows X[i] Y := by simp [matMul]
  rw [toZMod, entry, hrow, selectRows_getLsbD, xorOver_eq_sum]
  exact Finset.sum_congr rfl fun k _ => ite_and_eq_mul _ _

theorem one_shiftLeft_getLsbD (i k : Fin n) : (1#n <<< i.val).getLsbD k.val = decide (i = k) := by
  rw [← BitVec.twoPow_eq, BitVec.getLsbD_twoPow]
  simp [Fin.ext_iff]

@[simp] theorem wordOfBits_getLsbD (f : Fin n → Bool) (i : Fin n) : (wordOfBits f).getLsbD i.val = f i := by
  have key : ∀ (l : List (Fin n)) (u : BitVec n), l.Nodup →
      (l.foldl (fun u i => if f i then u ||| (1#n <<< i.val) else u) u).getLsbD i.val =
        (u.getLsbD i.val || (decide (i ∈ l) && f i)) := by
    intro l
    induction l with
    | nil => intro u _; simp
    | cons k l ih =>
      intro u hl
      have ⟨hk, hl'⟩ := List.nodup_cons.mp hl
      rw [List.foldl_cons, ih _ hl']
      by_cases hki : k = i
      · subst hki
        cases f k <;> simp [hk]
      · have hu : (if f k = true then u ||| 1#n <<< k.val else u).getLsbD i.val = u.getLsbD i.val := by
          split
          · rw [BitVec.getLsbD_or, one_shiftLeft_getLsbD]; simp [hki]
          · rfl
        have hik : i ≠ k := fun h => hki h.symm
        rw [hu]
        simp [hik]
  rw [wordOfBits, key _ _ (List.nodup_finRange n)]
  simp

/-- The bits of an applied matrix (R104). -/
theorem applyMatrix_getLsbD (X : BitMatrix n) (v : BitVec n) (i : Fin n) :
    (applyMatrix X v).getLsbD i.val = parity (X[i] &&& v) := wordOfBits_getLsbD _ i

/-- Every matrix over `ZMod 2` is that of a bit matrix. -/
theorem toZMod_surj (m : Matrix (Fin n) (Fin n) (ZMod 2)) : ∃ X : BitMatrix n, toZMod X = m := by
  refine ⟨Vector.ofFn fun i => wordOfBits fun j => m i j == 1, ?_⟩
  funext i j
  have hrow : (Vector.ofFn fun i => wordOfBits fun j => m i j == 1)[i] = wordOfBits fun j => m i j == 1 := by simp
  rw [toZMod, entry, hrow, wordOfBits_getLsbD]
  generalize m i j = z
  revert z
  decide

theorem vecZMod_applyMatrix (X : BitMatrix n) (v : BitVec n) :
    vecZMod (applyMatrix X v) = (toZMod X).mulVec (vecZMod v) := by
  funext i
  rw [vecZMod, applyMatrix_getLsbD, parity, xorOver_eq_sum]
  refine Finset.sum_congr rfl fun k _ => ?_
  rw [BitVec.getLsbD_and]
  exact ite_and_eq_mul _ _

end Sys2Proof.Machine
end

