-- ==== Sys2Proof/Laws/PerInstr.lean ====
section
/-! SUPPORT. Statements about every command as syntax, one lemma per constructor. -/

namespace Sys2Proof.Laws.EncodeMatchesRow

open Sys2Proof

/-- The encoding of a command matches the row of the opcode map that has its mnemonic (R75). -/
def Statement (i : Instr) : Prop :=
  ∃ row ∈ opcodeMap, row.mnemonic = i.mnemonic ∧ encodeWord i &&& row.mask = row.pattern

/-- A packed word matches a row when its fields do. -/
theorem packWord_matches {op : BitVec 8} {b : BitVec 1} {idx imm : Byte} {mask pattern : Word}
    (hop : op &&& opField mask = opField pattern) (hz : zField pattern = 0)
    (hb : b &&& bField mask = bField pattern) (hidx : idx &&& idxField mask = idxField pattern)
    (himm : imm &&& immField mask = immField pattern) : packWord op b idx imm &&& mask = pattern := by
  rw [and_eq_iff_fields]
  simp only [opField_packWord, zField_packWord, bField_packWord, idxField_packWord, immField_packWord]
  exact ⟨hop, by rw [hz]; exact BitVec.zero_and, hb, hidx, himm⟩

theorem row_high_bits (r : Row) : idxOfRow r &&& 0xE0#8 = 0#8 := by
  revert r
  decide

theorem nop : Statement .nop := ⟨_, .head _, rfl, by decide⟩

theorem stat : Statement .stat := ⟨_, .tail _ (.head _), rfl, by decide⟩

theorem rst : Statement .rst := ⟨_, .tail _ (.tail _ (.head _)), rfl, by decide⟩

theorem mwr (r : Row) (wd : Word) : Statement (.mwr r wd) :=
  ⟨⟨"MWR", 0xFFFFE0FF#32, 0x10000000#32⟩, by decide, rfl,
    packWord_matches (by decide) (by decide) (by decide) (row_high_bits r) (by decide)⟩

theorem mrd (r : Row) : Statement (.mrd r) :=
  ⟨⟨"MRD", 0xFFFFE0FF#32, 0x11000000#32⟩, by decide, rfl,
    packWord_matches (by decide) (by decide) (by decide) (row_high_bits r) (by decide)⟩

theorem minv : Statement .minv := ⟨⟨"MINV", 0xFFFFFFFF#32, 0x12000000#32⟩, by decide, rfl, by decide⟩

theorem ird (r : Row) : Statement (.ird r) :=
  ⟨⟨"IRD", 0xFFFFE0FF#32, 0x13000000#32⟩, by decide, rfl,
    packWord_matches (by decide) (by decide) (by decide) (row_high_bits r) (by decide)⟩

theorem twr (b : Bank) (x v : Byte) : Statement (.twr b x v) :=
  ⟨⟨"TWR", 0xFFFE0000#32, 0x20000000#32⟩, by decide, rfl,
    packWord_matches (by decide) (by decide) BitVec.and_zero BitVec.and_zero BitVec.and_zero⟩

theorem trd (b : Bank) (x : Byte) : Statement (.trd b x) :=
  ⟨⟨"TRD", 0xFFFE00FF#32, 0x21000000#32⟩, by decide, rfl,
    packWord_matches (by decide) (by decide) BitVec.and_zero BitVec.and_zero (by decide)⟩

theorem tbld (b : Bank) : Statement (.tbld b) :=
  ⟨⟨"TBLD", 0xFFFEFFFF#32, 0x22000000#32⟩, by decide, rfl,
    packWord_matches (by decide) (by decide) BitVec.and_zero (by decide) (by decide)⟩

theorem cls (b : Bank) (y : Byte) : Statement (.cls b y) :=
  ⟨⟨"CLS", 0xFFFE00FF#32, 0x23000000#32⟩, by decide, rfl,
    packWord_matches (by decide) (by decide) BitVec.and_zero BitVec.and_zero (by decide)⟩

theorem prd (b : Bank) (y k : Byte) : Statement (.prd b y k) :=
  ⟨⟨"PRD", 0xFFFE0000#32, 0x24000000#32⟩, by decide, rfl,
    packWord_matches (by decide) (by decide) BitVec.and_zero BitVec.and_zero BitVec.and_zero⟩

end Sys2Proof.Laws.EncodeMatchesRow
end

