-- ==== Sys2Proof/Laws/Relation.lean ====
section
/-! SUPPORT. The bytes in increasing order, and the inverse relation list by list: the list of `y` is the bytes that the
table maps to `y`, in increasing order. -/

namespace Sys2Proof.Machine

@[simp] theorem allBytes_length : allBytes.length = 256 := by simp [allBytes]

@[simp] theorem mem_allBytes (x : Byte) : x ∈ allBytes := by
  refine List.mem_map.mpr ⟨x.toNat, List.mem_range.mpr x.isLt, ?_⟩
  simp

/-- Every byte stands once, in increasing order. -/
theorem allBytes_sorted : allBytes.Pairwise fun a b => a.toNat < b.toNat := by
  refine List.pairwise_map.mpr (List.Pairwise.imp_of_mem ?_ List.pairwise_lt_range)
  intro a b ha hb hab
  rw [List.mem_range] at ha hb
  simp only [BitVec.toNat_ofNat]
  rwa [Nat.mod_eq_of_lt ha, Nat.mod_eq_of_lt hb]

theorem allBytes_nodup : allBytes.Nodup :=
  allBytes_sorted.imp fun {a b} h e => by subst e; exact lt_irrefl _ h

/-- Byte `x` stands at position `x`. -/
theorem allBytes_getElem? (k : Nat) : allBytes[k]? = if k < 256 then some (BitVec.ofNat 8 k) else none := by
  unfold allBytes
  rw [List.getElem?_map]
  split <;> simp_all

@[simp] theorem listAt_appendAt (pre : Relation) (y y' x : Byte) :
    listAt (appendAt pre y x) y' = if y = y' then listAt pre y ++ [x] else listAt pre y' := by
  simp [listAt, appendAt, Vector.getElem_set, BitVec.toNat_inj]

@[simp] theorem listAt_emptyRelation (y : Byte) : listAt emptyRelation y = [] := by
  simp [listAt, emptyRelation]

/-- Two relations with the same lists are equal. -/
theorem relation_ext {p q : Relation} (h : ∀ y, listAt p y = listAt q y) : p = q := by
  apply Vector.ext
  intro i hi
  simpa [listAt, Nat.mod_eq_of_lt hi] using h (BitVec.ofNat 8 i)

/-- Two tables with the same entries are equal. -/
theorem table_ext {p q : Table} (h : ∀ x, tableAt p x = tableAt q x) : p = q := by
  apply Vector.ext
  intro i hi
  simpa [tableAt, Nat.mod_eq_of_lt hi] using h (BitVec.ofNat 8 i)

/-- Appending along a list of inputs puts each behind the list of its output. -/
theorem listAt_foldl_appendAt (t : Table) (xs : List Byte) (pre : Relation) (y : Byte) :
    listAt (xs.foldl (fun pre x => appendAt pre (tableAt t x) x) pre) y =
      listAt pre y ++ xs.filter fun x => tableAt t x == y := by
  induction xs generalizing pre with
  | nil => simp
  | cons x xs ih =>
    rw [List.foldl_cons, ih, listAt_appendAt]
    by_cases h : tableAt t x = y
    · subst h; simp
    · simp [h]

/-- The list of `y` in `build_inverse(t)`: the bytes `x` with `t[x] = y`, in increasing order (R131). -/
theorem listAt_buildInverse (t : Table) (y : Byte) :
    listAt (buildInverse t) y = allBytes.filter fun x => tableAt t x == y := by
  rw [buildInverse, listAt_foldl_appendAt, listAt_emptyRelation, List.nil_append]

theorem length_listAt_buildInverse_le (t : Table) (y : Byte) : (listAt (buildInverse t) y).length ≤ 256 := by
  rw [listAt_buildInverse]
  exact (List.length_filter_le _ _).trans allBytes_length.le

@[simp] theorem tableAt_zeroTable (x : Byte) : tableAt zeroTable x = 0 := by simp [tableAt, zeroTable]

/-- The lists after reset (R27). -/
theorem listAt_resetRelation (y : Byte) : listAt resetRelation y = if y = 0 then allBytes else [] := by
  simp only [listAt, resetRelation, Vector.getElem_set, Vector.getElem_replicate]
  by_cases h : y = 0
  · subst h; rfl
  · have : ¬ 0 = y.toNat := fun e => h (BitVec.eq_of_toNat_eq e.symm)
    rw [if_neg this, if_neg h]

end Sys2Proof.Machine
end

