-- ==== Sys2Proof/Laws/Runs.lean ====
section
/-! SUPPORT. Sequences of commands one command at a time: later proofs go by induction over the commands and do not
unfold the runner of Host/Core.lean. -/

namespace Sys2Proof.Machine

/-- A run goes on from the next state of its first step. -/
theorem core_run_succ {m : Host.Core} {k : Nat} {s t : m.State} (h : m.step s = .next t) :
    m.run (k + 1) s = m.run k t := by
  show (match m.step s with | .next s' => m.run k s' | .fault r => .fault r | .refused r => .refused r) = _
  rw [h]

/-- A command is answered the same whatever the host presents after it. -/
theorem step_command {s t : State} {c : Command} (h : step (s.present c) = .next t) (rest : List HostEvent) :
    step { s with host := .command c :: rest } = .next { t with host := rest } := by
  cases hd : decode c.cw c.wd with
  | ok i =>
    rw [step_present_ok hd] at h
    exact (step_present_ok (s := { s with host := rest }) hd).trans (exec_port h rest s.rsp)
  | error e =>
    rw [step_present_error hd] at h
    cases next_injective h
    exact step_present_error (s := { s with host := rest }) hd

@[simp] theorem runs_nil (s t : State) : Runs s [] t ↔ t = s := by
  show (.next { s with host := [] ++ s.host } : Result) = .next t ↔ _
  exact ⟨fun h => (next_injective h).symm, fun h => h ▸ rfl⟩

/-- A sequence of commands runs as its first command and then the others. -/
theorem runs_cons (s u : State) (c : Command) (cs : List Command) :
    Runs s (c :: cs) u ↔ ∃ t, step (s.present c) = .next t ∧ Runs t cs u := by
  obtain ⟨t, _, ht, hh, _⟩ := step_present_answers s c
  have h := core_run_succ (m := Sys2Proof.core) (k := cs.length)
    (s := ({ s with host := .command c :: (cs.map .command ++ s.host) } : State))
    (t := ({ t with host := cs.map .command ++ s.host } : State)) (step_command ht _)
  have key : Runs s (c :: cs) u ↔ Runs t cs u := by
    show Host.Core.run Sys2Proof.core (cs.length + 1)
      ({ s with host := .command c :: (cs.map .command ++ s.host) } : State) = .next u ↔ _
    rw [h, ← hh]
    rfl
  rw [key]
  exact ⟨fun hr => ⟨t, ht, hr⟩, fun ⟨t', ht', hr⟩ => next_injective (ht.symm.trans ht') ▸ hr⟩

/-- A state in which a sequence of commands ends is reached from where it started. -/
theorem reaches_of_runs {s t u : State} {cs : List Command} (hs : Reaches s t) (h : Runs t cs u) : Reaches s u := by
  induction cs generalizing t with
  | nil => exact (runs_nil t u).mp h ▸ hs
  | cons c cs ih =>
    obtain ⟨v, hv, hr⟩ := (runs_cons t u c cs).mp h
    exact ih (hs.step _ hv) hr

end Sys2Proof.Machine
end

