-- ==== Sys2Proof/Tests/Slice0.lean ====
section
/-! SUPPORT. Tests, with expected values from spec/95_test_vectors.md and the examples of the rules, and a witness for
the hypotheses of every obligation that has any. -/

/-! One proof at a time: theorems that wait for a long evaluation would each hold a thread and its stack. -/

set_option Elab.async false

namespace Sys2Proof.Tests

open Sys2Proof Sys2Proof.Machine

/-! Ill-formed assembler lines: each range check refuses one (R83, R84). -/

theorem test_mwr_row_range : (Asm.mwr 32 0).wellFormed = false := by decide
theorem test_mwr_word_range : (Asm.mwr 0 0x100000000).wellFormed = false := by decide
theorem test_mrd_row_range : (Asm.mrd 32).wellFormed = false := by decide
theorem test_ird_row_range : (Asm.ird 40).wellFormed = false := by decide
theorem test_twr_index_range : (Asm.twr .even 256 0).wellFormed = false := by decide
theorem test_twr_value_range : (Asm.twr .odd 0 256).wellFormed = false := by decide
theorem test_trd_index_range : (Asm.trd .even 256).wellFormed = false := by decide
theorem test_cls_byte_range : (Asm.cls .even 256).wellFormed = false := by decide
theorem test_prd_byte_range : (Asm.prd .even 256 0).wellFormed = false := by decide
theorem test_prd_position_range : (Asm.prd .odd 0 256).wellFormed = false := by decide
theorem test_word_range : (Asm.word 0x100000000 0).wellFormed = false ∧ (Asm.word 0 0x100000000).wellFormed = false := by
  decide
theorem test_mload_length : (Asm.mload (List.replicate 31 0)).wellFormed = false := by decide
theorem test_invert_row_range : (Asm.invert (0x100000000 :: List.replicate 31 0)).wellFormed = false := by decide
theorem test_tload_length : (Asm.tload .even (List.replicate 255 0)).wellFormed = false := by decide +kernel
theorem test_build_entry_range : (Asm.build .odd (256 :: List.replicate 255 0)).wellFormed = false := by decide +kernel
theorem test_largest_operands_accepted :
    (Asm.mwr 31 0xFFFFFFFF).wellFormed = true ∧ (Asm.prd .odd 255 255).wellFormed = true := by decide

/-- Vector V-E2: no row of the opcode map matches, one word or more for each clause of R77. -/
theorem test_illegal_words :
    [0x03000000#32, 0x14000000, 0x25000000, 0xFF000000, 0x00000001, 0x00020000, 0x01010000, 0x10002000, 0x10010000,
      0x10000001, 0x12000100, 0x13002800, 0x21000001, 0x22000100, 0x22000001, 0x23000001, 0x24020000, 0x20800000,
      0xFFFFFFFF].all (fun cw => legalWord cw == false) = true := by decide

/-! Decoding: words written out from the field layout of R72 and the opcodes of R75, operands at their extremes. -/

--                    op        z       b idx      imm8
theorem decode_nop : decode 0b00000000_0000000_0_00000000_00000000 7 = .ok .nop := by decide
theorem decode_stat : decode 0b00000001_0000000_0_00000000_00000000 7 = .ok .stat := by decide
theorem decode_rst : decode 0b00000010_0000000_0_00000000_00000000 7 = .ok .rst := by decide
theorem decode_mwr : decode 0b00010000_0000000_0_00011111_00000000 7 = .ok (.mwr 31 7) := by decide
theorem decode_mrd : decode 0b00010001_0000000_0_00010000_00000000 7 = .ok (.mrd 16) := by decide
theorem decode_minv : decode 0b00010010_0000000_0_00000000_00000000 7 = .ok .minv := by decide
theorem decode_ird : decode 0b00010011_0000000_0_00000001_00000000 7 = .ok (.ird 1) := by decide
theorem decode_twr : decode 0b00100000_0000000_1_11111111_10101011 7 = .ok (.twr .odd 0xFF 0xAB) := by decide
theorem decode_trd : decode 0b00100001_0000000_0_11111110_00000000 7 = .ok (.trd .even 0xFE) := by decide
theorem decode_tbld : decode 0b00100010_0000000_1_00000000_00000000 7 = .ok (.tbld .odd) := by decide
theorem decode_cls : decode 0b00100011_0000000_1_10000000_00000000 7 = .ok (.cls .odd 0x80) := by decide
theorem decode_prd : decode 0b00100100_0000000_0_00000001_11111110 7 = .ok (.prd .even 0x01 0xFE) := by decide

/-- The command word stands in bits 31:0 and the operand word in bits 63:32 of the table's numbering. -/
theorem test_decodeTableWord : decodeTableWord 64 0xDEADBEEF_10001F00 = some (.mwr 31 0xDEADBEEF) ∧
    decodeTableWord 32 0x10001F00 = some (.mwr 31 0) ∧ decodeTableWord 32 0x10002000 = none := by decide

theorem test_encode_mwr : encode (.mwr 3 0x0000000F) = ⟨0x10000300, 0x0000000F⟩ := by decide
theorem test_encode_prd : encode (.prd .even 5 1) = ⟨0x24000501, 0⟩ := by decide

/-! One command: the response, and the state after it. -/

/-- The response to one command. -/
def answer (s : State) (cw wd : Word) : Option Response :=
  match step (s.present ⟨cw, wd⟩) with
  | .next t => t.rsp
  | .fault _ => none
  | .refused _ => none

/-- The state after one command. -/
def after (s : State) (cw wd : Word) : State :=
  match step (s.present ⟨cw, wd⟩) with
  | .next t => t
  | .fault _ => s
  | .refused _ => s

/-- Reset with the rows given written. -/
def withRows (rows : List (Row × Word)) : State := rows.foldl (fun s p => s.setRowM p.1 p.2) State.reset

/-- The rotation of vector V-M3: row `i` has its one bit in column `i + 1`, row 31 in column 0. -/
def rotation : State :=
  { State.reset with M := Vector.ofFn fun i : Fin 32 => BitVec.ofNat 32 (2 ^ ((i.val + 1) % 32)) }

/-- The identity with row `r` zeroed. -/
def identityWithout (r : Row) : State := { State.reset with M := (identityMatrix 32).set r 0 }

/-- The identity, inverted. -/
def inverted : State := { State.reset with M := identityMatrix 32, INV := identityMatrix 32, ISTAT := .VALID }

/-- The example of R139: entries 1 and 2 are 5, entry 3 is 7. -/
def exampleTable : Table := tableSet (tableSet (tableSet zeroTable 1 5) 2 5) 3 7

/-- The lists of the example of R139: of 5, of 7, the other 253 bytes of 0, all other lists empty. -/
def exampleRelation : Relation := ((resetRelation.set 0 (0 :: allBytes.drop 4)).set 5 [1, 2]).set 7 [3]

/-- The example of R139 in the even bank, built. -/
def exampleBuilt : State :=
  { State.reset with
    T := ⟨exampleTable, zeroTable⟩, IR := ⟨exampleRelation, resetRelation⟩, TBUILT := ⟨true, false⟩ }

theorem test_nop : answer State.reset 0x00000000 0x12345678 = some ⟨.OK, 0⟩ := by decide

/-- R161: a failure at column 7 with both banks built. -/
theorem test_stat : answer { State.reset with ISTAT := .SINGULAR, FCOL := 7, TBUILT := ⟨true, true⟩ } 0x01000000 0 =
    some ⟨.OK, 0x0000070E⟩ := by decide
theorem test_stat_reset : answer State.reset 0x01000000 0xFFFFFFFF = some ⟨.OK, 0⟩ := by decide

theorem test_rst : answer inverted 0x02000000 0 = some ⟨.OK, 0⟩ := by decide
theorem test_rst_state : (after exampleBuilt 0x02000000 0).entryT .even 3 = 0 ∧
    (after inverted 0x02000000 0).ISTAT = .NONE := by decide

theorem test_mwr : (after State.reset 0x10000300 0x0000000F).M[3] = 0x0000000F ∧
    (after State.reset 0x10000300 0x0000000F).M[4] = 0 := by decide
/-- Vector V-M13: a row that keeps its value invalidates the inverse. -/
theorem test_mwr_invalidates : (after inverted 0x10000000 1).ISTAT = .NONE ∧ (after inverted 0x10000000 1).M[0] = 1 := by
  decide

theorem test_mrd : answer (withRows [(31, 0xDEADBEEF)]) 0x11001F00 0xFFFFFFFF = some ⟨.OK, 0xDEADBEEF⟩ := by decide

/-- Vector V-M3. -/
theorem test_minv : (after rotation 0x12000000 0).INV.toList = 0x80000000 :: (List.range 31).map fun i => BitVec.ofNat 32 (2 ^ i) := by
  decide +kernel
/-- Vector V-M6, the identity with row 7 zeroed: column 7. -/
theorem test_minv_singular : answer (identityWithout 7) 0x12000000 0 = some ⟨.ERR_SINGULAR, 7⟩ := by decide +kernel
/-- Program P4, step 24: only row 31 is not zero and has bit 0 set, so the search fails at column 1 (log entry 12). -/
theorem test_minv_last_row : answer (withRows [(31, 0xDEADBEEF)]) 0x12000000 0 = some ⟨.ERR_SINGULAR, 1⟩ := by
  decide +kernel

theorem test_ird_valid : answer inverted 0x13001F00 0 = some ⟨.OK, 0x80000000⟩ := by decide
theorem test_ird_errors : answer State.reset 0x13000000 0 = some ⟨.ERR_NOTREADY, 0⟩ ∧
    answer { State.reset with ISTAT := .SINGULAR, FCOL := 31 } 0x13000000 0 = some ⟨.ERR_SINGULAR, 31⟩ := by decide

theorem test_twr : answer (after exampleBuilt 0x20000307 0) 0x21000300 0 = some ⟨.OK, 7⟩ := by decide +kernel
/-- Program P3, step 28: an entry that keeps its value invalidates its bank only. -/
theorem test_twr_invalidates :
    (after { exampleBuilt with TBUILT := ⟨true, true⟩ } 0x20000307 0).TBUILT = ⟨false, true⟩ := by decide +kernel

theorem test_trd : answer exampleBuilt 0x21000300 0 = some ⟨.OK, 7⟩ ∧ answer exampleBuilt 0x21010300 0 = some ⟨.OK, 0⟩ := by
  decide +kernel

theorem exampleTable_at (x : Byte) :
    tableAt exampleTable x = if 3 = x then 7 else if 2 = x then 5 else if 1 = x then 5 else 0 := by
  simp only [exampleTable, tableAt_tableSet, tableAt_zeroTable]

theorem exampleTable_built : buildInverse exampleTable = exampleRelation := by
  refine relation_ext fun y => ?_
  simp only [listAt_buildInverse, exampleTable_at]
  by_cases h : y = 0 ∨ y = 5 ∨ y = 7
  · rcases h with rfl | rfl | rfl <;> decide +kernel
  · simp only [not_or] at h
    obtain ⟨h0, h5, h7⟩ := h
    have he : listAt exampleRelation y = [] := by
      have n0 : ¬ 0 = y.toNat := fun e => h0 (BitVec.eq_of_toNat_eq e.symm)
      have n5 : ¬ 5 = y.toNat := fun e => h5 (BitVec.eq_of_toNat_eq e.symm)
      have n7 : ¬ 7 = y.toNat := fun e => h7 (BitVec.eq_of_toNat_eq e.symm)
      simp [listAt, exampleRelation, resetRelation, n0, n5, n7]
    rw [he, List.filter_eq_nil_iff]
    intro x _
    have e0 : ¬ (0#8 = y) := fun e => h0 e.symm
    have e5 : ¬ (5#8 = y) := fun e => h5 e.symm
    have e7 : ¬ (7#8 = y) := fun e => h7 e.symm
    by_cases h3 : 3 = x <;> by_cases h2 : 2 = x <;> by_cases h1 : 1 = x <;> simp_all

/-- The example of R139. -/
theorem test_tbld : (after { State.reset with T := ⟨exampleTable, zeroTable⟩ } 0x22000000 0).IR.even = exampleRelation ∧
    (after { State.reset with T := ⟨exampleTable, zeroTable⟩ } 0x22000000 0).statusWord = 4 := by
  have hd : decode 0x22000000 0 = .ok (.tbld .even) := by decide
  simp only [after, step_present_ok (c := ⟨0x22000000, 0⟩) hd, exec_tbld]
  refine ⟨?_, by decide⟩
  simp only [State.withResponse_IR, State.setBuilt_IR, State.setIR_IR, PerBank.set, PerBank.get]
  exact exampleTable_built

/-- The examples of R141. -/
theorem test_cls : answer exampleBuilt 0x23000500 0 = some ⟨.OK, 0x80020201⟩ ∧
    answer exampleBuilt 0x23000700 0 = some ⟨.OK, 0x40010003⟩ ∧ answer exampleBuilt 0x23000600 0 = some ⟨.OK, 0⟩ ∧
      answer exampleBuilt 0x23000000 0 = some ⟨.OK, 0x80FD0400⟩ ∧
        answer exampleBuilt 0x23010000 0 = some ⟨.ERR_NOTREADY, 0⟩ := by decide +kernel
/-- Vector V-T1: 256 preimages need the ninth bit of the count. -/
theorem test_cls_full : answer { State.reset with TBUILT := ⟨true, true⟩ } 0x23000000 0 = some ⟨.OK, 0x81000100⟩ := by
  decide +kernel

/-- The examples of R142, and program P3, steps 18 and 19. -/
theorem test_prd : answer exampleBuilt 0x24000501 0 = some ⟨.OK, 2⟩ ∧
    answer exampleBuilt 0x24000502 0 = some ⟨.ERR_RANGE, 2⟩ ∧ answer exampleBuilt 0x24000600 0 = some ⟨.ERR_RANGE, 0⟩ ∧
      answer exampleBuilt 0x240000FC 0 = some ⟨.OK, 0xFF⟩ ∧ answer exampleBuilt 0x240000FD 0 = some ⟨.ERR_RANGE, 0xFD⟩ := by
  decide +kernel
/-- Program P3, step 31: readiness before the range. -/
theorem test_prd_priority : answer State.reset 0x240009C8 0 = some ⟨.ERR_NOTREADY, 0⟩ := by decide

/-- Program P4: an illegal word is answered alike in any state and writes nothing, `wd` included. -/
theorem test_illegal : answer inverted 0x10002000 0xFFFFFFFF = some ⟨.ERR_ILLEGAL, 0⟩ ∧
    (after inverted 0x10002000 0xFFFFFFFF).M = inverted.M ∧ (after inverted 0x10002000 0xFFFFFFFF).ISTAT = .VALID := by
  decide +kernel

/-- R74: the values of `rcode`. -/
theorem test_rcode : RCode.OK.code = 0 ∧ RCode.ERR_ILLEGAL.code = 1 ∧ RCode.ERR_SINGULAR.code = 2 ∧
    RCode.ERR_NOTREADY.code = 3 ∧ RCode.ERR_RANGE.code = 4 := by decide

/-- R201: a hardware reset in the middle of a command leaves the reset state and no response. -/
theorem test_hardware_reset :
    step { inverted with host := [.reset (some ⟨0x12000000, 0⟩)] } = .next State.reset := by rfl

/-! The elimination on small matrices. -/

/-- Vector V-M10: swaps, and a row addition into an earlier row. -/
theorem test_gf2_V_M10 : gf2Invert (#v[0x2#4, 0x8#4, 0x1#4, 0xF#4]) = .ok #v[0x4#4, 0x1#4, 0xF#4, 0x2#4] := by decide
/-- Vector V-M11, and its near variant. -/
theorem test_gf2_V_M11 : gf2Invert (#v[0x6#4, 0x3#4, 0x5#4, 0xB#4]) = .singular 2 ∧
    gf2Invert (#v[0x6#4, 0x3#4, 0x5#4, 0x9#4]) = .singular 3 := by decide
/-- Vector V-M12: column `j` is bit `j`. -/
theorem test_gf2_V_M12 : gf2Invert (#v[0b01#2, 0b11#2]) = .ok #v[0b01#2, 0b11#2] ∧
    gf2Invert (#v[0b10#2, 0b11#2]) = .ok #v[0b11#2, 0b01#2] := by decide
/-- `apply` of vector V-M4 needs a dense matrix; this is R104 on the matrix of vector V-M10, by hand. -/
theorem test_apply : applyMatrix (#v[0x2#4, 0x8#4, 0x1#4, 0xF#4]) 0x6#4 = 0x1#4 := by decide

/-! The assembler on text (R83, R84). -/

theorem test_text_mwr : assembleText "mwr r31, 0xDEADBEEF ; step 19 of P4".toList = some [⟨0x10001F00, 0xDEADBEEF⟩] := by
  decide +kernel
theorem test_text_program : assembleText "rst\n\ntwr t1, 0b11, 255\n  ; nothing\n.word 0x03000000, 5".toList =
    some [⟨0x02000000, 0⟩, ⟨0x200103FF, 0⟩, ⟨0x03000000, 5⟩] := by decide +kernel
theorem test_text_range : assembleText "mrd r32".toList = none ∧ assembleText "cls even, 256".toList = none := by
  decide +kernel

/-! Witnesses: for each obligation with hypotheses, a concrete case that meets them, and for each of its clauses a case
at the edge of its range. -/

/-- Outcomes that are a next state. -/
def isNext : Host.Outcome State Fault Refusal → Bool
  | .next _ => true
  | .fault _ => false
  | .refused _ => false

/-- A run that can be evaluated to its end has an end. -/
theorem exists_run {s : State} {cs : List Command}
    (h : isNext (Host.Core.run Sys2Proof.core cs.length (s.presentAll cs)) = true) : ∃ t, Runs s cs t := by
  unfold Runs
  revert h
  cases hr : Host.Core.run Sys2Proof.core cs.length (s.presentAll cs) with
  | next t => exact fun _ => ⟨t, rfl⟩
  | fault f => intro h; cases h
  | refused r => intro h; cases h

theorem inverted_inv : Inv inverted where
  valid _ := by decide +kernel
  singular h := by cases h
  fcol _ := rfl
  built b h := by cases b <;> cases h

/-- The state in which MINV has failed at column 31. -/
def failedLast : State := { identityWithout 31 with ISTAT := .SINGULAR, FCOL := 31 }

theorem identityWithout_last : gf2Invert (identityWithout 31).M = .singular 31 := by decide +kernel

theorem failedLast_inv : Inv failedLast where
  valid h := by cases h
  singular _ := ⟨31, identityWithout_last, rfl⟩
  fcol h := absurd rfl h
  built b h := by cases b <;> cases h

theorem exampleBuilt_inv : Inv exampleBuilt where
  valid h := by cases h
  singular h := by cases h
  fcol _ := rfl
  built b h := by
    cases b with
    | even => exact exampleTable_built.symm
    | odd => cases h

/-- The zero table of both banks, built: one list of 256 elements. -/
def zeroBuilt : State := { State.reset with TBUILT := ⟨true, true⟩ }

/-- The same with the relation that TBLD builds. -/
def zeroRebuilt : State := { zeroBuilt with IR := ⟨buildInverse zeroTable, buildInverse zeroTable⟩ }

theorem zeroRebuilt_inv : Inv zeroRebuilt where
  valid h := by cases h
  singular h := by cases h
  fcol _ := rfl
  built b _ := by
    cases b with
    | even => simp only [zeroRebuilt, zeroBuilt, PerBank.get, State.reset_T]
    | odd => simp only [zeroRebuilt, zeroBuilt, PerBank.get, State.reset_T]

theorem zeroRebuilt_cls : Answers (.cls .even 0) zeroRebuilt .OK 0x81000100 := by
  refine ⟨_, exec_cls_built rfl 0, ?_⟩
  have h : zeroRebuilt.listIR .even 0 = allBytes := by
    simp [State.listIR, zeroRebuilt, zeroBuilt, PerBank.get, listAt_buildInverse]
  rw [h]
  decide +kernel

theorem witness_EncodeOfDecode : decode 0x10001F00 5 = .ok (.mwr 31 5) := by decide

theorem witness_DecoderIsTheOpcodeMap : ⟨"PRD", 0xFFFE0000#32, 0x24000000#32⟩ ∈ opcodeMap := by decide

theorem witness_IllegalWordsAnswerErrIllegal : legalWord 0x25000000 = false ∧ legalWord 0x00020000 = false ∧
    legalWord 0x10002000 = false ∧ legalWord 0x10001F00 = true := by decide

theorem witness_OperandWordReadByMwrOnly : ∀ r w, decode 0x11001F00 5 ≠ .ok (.mwr r w) := by
  intro r w h
  have h' : decode 0x11001F00 5 = .ok (.mrd 31) := by decide
  rw [h'] at h
  cases h

theorem witness_StepRunsDecodedCommand :
    (State.reset.present ⟨0x10001F00, 5⟩).host = .command ⟨0x10001F00, 5⟩ :: [] ∧
      decode 0x10001F00 5 = .ok (.mwr 31 5) := by decide

theorem witness_EveryCommandIsAnswered :
    (State.reset.present ⟨0xFFFFFFFF, 0⟩).host = .command ⟨0xFFFFFFFF, 0⟩ :: [] := by decide

theorem witness_IdleBlockKeepsItsState : inverted.host = [] := rfl

theorem witness_NopDoesNothing : (0x00000001#32 ≠ 0) ∧
    ∀ row ∈ opcodeMap, row.mnemonic ≠ "NOP" → 0x00000001#32 &&& row.mask ≠ row.pattern := by decide

theorem witness_StatReadsStatus : Inv inverted ∧ inverted.ISTAT ≠ .SINGULAR := ⟨inverted_inv, by decide⟩

theorem witness_MrdReadsOneRow : ∃ t, exec .minv (identityWithout 31) = .next t := by
  obtain ⟨t, _, h, _⟩ := exec_answers .minv (identityWithout 31)
  exact ⟨t, h⟩

theorem witness_HostSequenceIsTakenInOrder :
    ({ inverted with host := [.reset none, .command ⟨0, 0⟩] } : State).host = .reset none :: [.command ⟨0, 0⟩] := rfl

theorem witness_HardwareResetDiscardsTheCommand :
    ({ inverted with host := [.reset (some ⟨0x12000000, 0⟩)] } : State).host = .reset (some ⟨0x12000000, 0⟩) :: [] ∧
      ({ inverted with host := [.reset none] } : State).host = .reset none :: [] := ⟨rfl, rfl⟩

theorem witness_CommandsApplyInOrder : ∃ t, Runs State.reset [⟨0x10000300, 15⟩, ⟨0x12000000, 0⟩] t :=
  exists_run (by decide +kernel)

theorem witness_LatestWriteIsHeld :
    ∃ t, Runs State.reset ([Instr.mwr 3 1, .twr .odd 255 255, .mwr 3 2, .rst, .mwr 31 5].map encode) t :=
  exists_run (by decide +kernel)

/-- `OtherFormsIllegal` in the statements of the twelve commands: a word with the opcode that misses the row. -/
theorem witness_OtherFormsIllegal :
    [(0x00#8, 0xFFFFFFFF#32, 0x00000000#32, 0x00000001#32), (0x01, 0xFFFFFFFF, 0x01000000, 0x01010000),
      (0x02, 0xFFFFFFFF, 0x02000000, 0x02000100), (0x10, 0xFFFFE0FF, 0x10000000, 0x10002000),
      (0x11, 0xFFFFE0FF, 0x11000000, 0x11000001), (0x12, 0xFFFFFFFF, 0x12000000, 0x12000100),
      (0x13, 0xFFFFE0FF, 0x13000000, 0x13002800), (0x20, 0xFFFE0000, 0x20000000, 0x20020000),
      (0x21, 0xFFFE00FF, 0x21000000, 0x21000001), (0x22, 0xFFFEFFFF, 0x22000000, 0x22000100),
      (0x23, 0xFFFE00FF, 0x23000000, 0x23000001), (0x24, 0xFFFE0000, 0x24000000, 0x24020000)].all
      (fun p => opField p.2.2.2 == p.1 && p.2.2.2 &&& p.2.1 != p.2.2.1) = true := by decide

theorem witness_MinvInverts : gf2Invert inverted.M = .ok inverted.INV ∧ gf2Invert State.reset.M = .singular 0 ∧
    gf2Invert (identityWithout 31).M = .singular 31 :=
  ⟨inverted_inv.valid rfl, by decide +kernel, identityWithout_last⟩

theorem witness_IrdReadsTheInverse : Inv inverted ∧ inverted.ISTAT = .VALID ∧ State.reset.ISTAT = .NONE ∧
    failedLast.ISTAT = .SINGULAR := ⟨inverted_inv, rfl, rfl, rfl⟩

theorem witness_InverseIsUnique : IsInverse (#v[0x2#4, 0x8#4, 0x1#4, 0xF#4]) (#v[0x4#4, 0x1#4, 0xF#4, 0x2#4]) := by
  unfold IsInverse
  decide

theorem witness_EliminationLoopInvariant : ∃ B B', (0 ≤ 4 ∧
    columnSteps ((List.finRange 4).take 0) (startBuffers (#v[0x2#4, 0x8#4, 0x1#4, 0xF#4])) = .ok B) ∧
      columnSteps ((List.finRange 4).take 4) (startBuffers (#v[0x2#4, 0x8#4, 0x1#4, 0xF#4])) = .ok B' :=
  ⟨_, ⟨identityMatrix 4, #v[0x4#4, 0x1#4, 0xF#4, 0x2#4]⟩, ⟨by decide, rfl⟩, by decide⟩

theorem witness_InverterIsRight : gf2Invert (#v[0x2#4, 0x8#4, 0x1#4, 0xF#4]) = .ok #v[0x4#4, 0x1#4, 0xF#4, 0x2#4] := by
  decide

theorem witness_FailureIsExact : gf2Invert (#v[0x6#4, 0x3#4, 0x5#4, 0x9#4]) = .singular 3 ∧
    gf2Invert (#v[0x0#4, 0x3#4, 0x5#4, 0x9#4]) = .singular 3 ∧ (#v[0x0#4, 0x3#4, 0x5#4, 0x9#4])[(0 : Fin 4)] = 0 := by
  decide

/-- The second eligible row is taken as the pivot of column 0; and a matrix whose column 0 has none. -/
theorem witness_PivotAndOrderDoNotMatter : [1, 0].Perm (List.finRange 2) ∧
    (∃ B, AnyPivotRun (List.finRange 2) (startBuffers (#v[0b11#2, 0b01#2])) (.ok B)) ∧
      AnyPivotRun (List.finRange 2) (startBuffers (#v[0b10#2, 0b10#2])) (.error 0) := by
  refine ⟨by decide, ⟨_, .pivot (p := 1) (by decide) (by decide) (.pivot (p := 1) (by decide) (by decide) (.done _))⟩, ?_⟩
  exact .fail (by decide)

/-- A list of two bytes, one of 256, and a bank that is not built. -/
theorem witness_ClsAnswersTheAnnotation :
    (exampleBuilt.TBUILT.get .even = true ∧ exampleBuilt.TBUILT.get .odd = false) ∧
      ((exampleBuilt.listIR .even 5).length ≤ 256 ∧ Answers (.cls .even 5) exampleBuilt .OK 0x80020201) ∧
        (zeroBuilt.listIR .even 0).length ≤ 256 ∧ Answers (.cls .even 0) zeroBuilt .OK 0x81000100 ∧
          Inv exampleBuilt ∧ Inv zeroRebuilt ∧ Answers (.cls .even 0) zeroRebuilt .OK 0x81000100 :=
  ⟨⟨rfl, rfl⟩, ⟨by decide +kernel, _, exec_cls_built rfl 5, by decide +kernel⟩, by decide +kernel,
    ⟨_, exec_cls_built rfl 0, by decide +kernel⟩, exampleBuilt_inv, zeroRebuilt_inv, zeroRebuilt_cls⟩

/-- The last element of a list of two and of one of 256; the first position after a list of two, and of an empty one. -/
theorem witness_PrdReadsOnePreimage : (exampleBuilt.TBUILT.get .even = true ∧ zeroBuilt.TBUILT.get .even = true ∧
    exampleBuilt.TBUILT.get .odd = false) ∧ (1 < (exampleBuilt.listIR .even 5).length ∧
      (255#8).toNat < (zeroBuilt.listIR .even 0).length) ∧ (exampleBuilt.listIR .even 5).length ≤ (2#8).toNat ∧
        (exampleBuilt.listIR .even 6).length ≤ (0#8).toNat ∧ 0 < (exampleBuilt.listIR .even 7).length := by decide +kernel
/-- The clause about CLS and positions 0 and 1, for a list of two and one of one. -/
theorem witness_PrdReadsOnePreimage_cls : Answers (.cls .even 5) exampleBuilt .OK 0x80020201 ∧
    Answers (.cls .even 7) exampleBuilt .OK 0x40010003 :=
  ⟨⟨_, exec_cls_built rfl 5, by decide +kernel⟩, _, exec_cls_built rfl 7, by decide +kernel⟩

theorem witness_RelationLaws : ¬ Function.Bijective (tableAt zeroTable) := by
  intro h
  have := h.1 (show tableAt zeroTable 0 = tableAt zeroTable 1 by simp)
  exact absurd this (by decide)

theorem witness_AnnotationFields : ([] : List Byte).length ≤ 256 ∧ allBytes.length ≤ 256 := by simp

theorem witness_ClsClassifiesThePresentTable : Inv exampleBuilt ∧ Answers (.cls .even 0) exampleBuilt .OK 0x80FD0400 ∧
    Answers (.cls .even 7) exampleBuilt .OK 0x40010003 ∧ Answers (.cls .even 6) exampleBuilt .OK 0 :=
  ⟨exampleBuilt_inv, ⟨_, rfl, by decide +kernel⟩, ⟨_, rfl, by decide +kernel⟩, ⟨_, rfl, by decide +kernel⟩⟩

theorem witness_EnumerationIsComplete : Inv exampleBuilt ∧ exampleBuilt.TBUILT.get .even = true ∧
    (exampleBuilt.listIR .even 0).length = 253 := ⟨exampleBuilt_inv, rfl, by decide +kernel⟩

theorem witness_PackedLayoutHoldsTheLists : 252 < packedCnt (buildInverse exampleTable) 0 := by
  rw [exampleTable_built]
  decide +kernel

theorem witness_StepKeepsTheInvariants : Inv failedLast ∧ ∃ t, step (failedLast.present ⟨0x12000000, 0⟩) = .next t := by
  obtain ⟨t, _, h, _⟩ := step_present_answers failedLast ⟨0x12000000, 0⟩
  exact ⟨failedLast_inv, t, h⟩

/-- The outcome is a next state in which the inverse is valid. -/
def isNextValid : Host.Outcome State Fault Refusal → Bool
  | .next t => decide (t.ISTAT = .VALID)
  | .fault _ => false
  | .refused _ => false

/-- Loading the identity and inverting it, from reset, reaches a VALID state. -/
theorem reached_valid : ∃ t, Reaches State.reset t ∧ t.ISTAT = .VALID := by
  have h : isNextValid (Host.Core.run Sys2Proof.core 33 (State.reset.presentAll
      (asmCommands (.invert ((identityMatrix 32).toList.map BitVec.toNat))))) = true := by decide +kernel
  revert h
  cases hr : Host.Core.run Sys2Proof.core 33 (State.reset.presentAll
      (asmCommands (.invert ((identityMatrix 32).toList.map BitVec.toNat)))) with
  | next t =>
    exact fun h => ⟨t, reaches_of_runs (cs := asmCommands (.invert ((identityMatrix 32).toList.map BitVec.toNat)))
      (.refl _) hr, of_decide_eq_true h⟩
  | fault f => intro h; cases h
  | refused r => intro h; cases h

/-- The clauses for VALID, SINGULAR and built banks are met by states that are reached. -/
theorem witness_ReachableStatesAreRight : (∃ t, Reaches State.reset t ∧ t.ISTAT = .VALID) ∧
    ∃ t u, Reaches State.reset t ∧ t.ISTAT = .SINGULAR ∧ Reaches State.reset u ∧ u.TBUILT.get .odd = true :=
  ⟨reached_valid, _, _, .step [.command ⟨0x12000000, 0⟩] (.refl _) rfl, by decide +kernel,
    .step [.command ⟨0x22010000, 0⟩] (.refl _) rfl, by decide +kernel⟩

theorem witness_StatusFieldsChangeOnlySo : ∃ t, exec .minv inverted = .next t :=
  ⟨_, exec_minv_ok witness_MinvInverts.1⟩

theorem witness_ReadsHaveNoSideEffect : isRead (.ird 0) = true ∧ isRead (.cls .odd 1) = true ∧
    ∃ t u, exec (.ird 0) inverted = .next t ∧ exec (.cls .odd 1) t = .next u :=
  ⟨rfl, rfl, _, _, exec_ird_valid rfl 0, exec_cls_notBuilt rfl 1⟩

theorem witness_GroupsAndBanksAreIndependent : bankOf (.twr .even 0 0) = some .even ∧ isMatrixCommand (.mwr 0 0) = true ∧
    SameBank .even exampleBuilt { exampleBuilt with M := identityMatrix 32 } ∧
      SameMatrixGroup exampleBuilt { exampleBuilt with T := ⟨zeroTable, exampleTable⟩ } :=
  ⟨rfl, rfl, ⟨rfl, rfl, rfl⟩, ⟨rfl, rfl, rfl, rfl⟩⟩

theorem witness_ErrorsChangeNothingElse :
    (∃ t, step (exampleBuilt.present ⟨0x25000000, 0⟩) = .next t ∧ t.rsp = some ⟨.ERR_ILLEGAL, 0⟩) ∧
      (∃ t, exec (.cls .odd 0) exampleBuilt = .next t ∧ t.rsp = some ⟨.ERR_NOTREADY, 0⟩) ∧
        (∃ t, exec .minv State.reset = .next t ∧ t.rsp = some ⟨.ERR_SINGULAR, 0⟩) ∧
          ∃ t, exec (.ird 0) failedLast = .next t ∧ t.rsp = some ⟨.ERR_SINGULAR, 31⟩ :=
  ⟨⟨_, step_present_error (e := .unassignedOp) (by decide), rfl⟩, ⟨_, exec_cls_notBuilt rfl 0, rfl⟩,
    ⟨_, exec_minv_singular witness_MinvInverts.2.1, by decide⟩, ⟨_, exec_ird_singular rfl 0, by decide⟩⟩

theorem witness_ErrorCausesAreComplete : exec .minv State.reset = .next ((State.reset.markSingular 0).withResponse
    .ERR_SINGULAR (zextCol (colField 0))) ∧ exec (.prd .even 5 2) exampleBuilt =
      .next (exampleBuilt.withResponse .ERR_RANGE (zextLen (exampleBuilt.listIR .even 5).length)) :=
  ⟨exec_minv_singular witness_MinvInverts.2.1, exec_prd_range rfl (by decide +kernel)⟩

theorem witness_ErrorPriority : legalWord 0x24020000 = false ∧ exampleBuilt.TBUILT.get .odd = false := by decide

theorem witness_AnswersAreNeverStale : Inv inverted ∧ Inv exampleBuilt ∧
    Answers (.ird 31) inverted .OK 0x80000000 ∧ Answers (.cls .even 5) exampleBuilt .OK 0x80020201 ∧
      Answers (.prd .even 5 1) exampleBuilt .OK 2 :=
  ⟨inverted_inv, exampleBuilt_inv, ⟨_, exec_ird_valid rfl 31, by decide⟩, ⟨_, exec_cls_built rfl 5, by decide +kernel⟩,
    ⟨_, exec_prd_built rfl (show (1#8).toNat < _ by decide +kernel), by decide +kernel⟩⟩

/-- Two states that differ in `INV` and in the relation of the bank that is not built. -/
theorem witness_HiddenStateIsNeverObserved : SameObservable exampleBuilt
    { exampleBuilt with INV := identityMatrix 32, IR := ⟨exampleRelation, emptyRelation⟩ } where
  M := rfl
  ISTAT := rfl
  FCOL := rfl
  INV h := by cases h
  T := rfl
  TBUILT := rfl
  IR b h := by
    cases b with
    | even => rfl
    | odd => cases h

theorem witness_InterleavedReadsAreIndependent : (∀ j ∈ [Instr.ird 3, .cls .odd 0], isRead j = true) ∧
    isRead (.prd .even 5 2) = true ∧ ∃ t, Runs exampleBuilt ([Instr.ird 3, .cls .odd 0].map encode) t :=
  ⟨by decide, rfl, exists_run (by decide +kernel)⟩

/-- The last operand in range and the first out of range, and the operands of the last clause. -/
theorem witness_AssemblerEmitsLegalWords : assemble (.mwr 31 0xFFFFFFFF) = some [⟨0x10001F00, 0xFFFFFFFF⟩] ∧
    assemble (.mwr 32 0) = none ∧ assemble (.mwr 0 0x100000000) = none ∧ assemble (.mrd 32) = none ∧
    assemble (.ird 31) = some [⟨0x13001F00, 0⟩] ∧ assemble (.twr .odd 255 255) = some [⟨0x2001FFFF, 0⟩] ∧
    assemble (.prd .even 255 256) = none ∧ assemble (.cls .odd 256) = none ∧
    (∀ cw wd, Asm.mwr 31 0xFFFFFFFF ≠ .word cw wd) :=
  ⟨rfl, rfl, rfl, rfl, rfl, rfl, rfl, rfl, fun _ _ h => by cases h⟩

/-- The commands of `mload` and `tload` as they stand and in reverse, and a run of each. -/
theorem witness_PseudoInstructionsLoad :
    ((Asm.mload (List.range 32)).wellFormed = true ∧
      (asmCommands (.mload (List.range 32))).reverse.Perm (asmCommands (.mload (List.range 32)))) ∧
    ((Asm.tload .odd (List.range 256)).wellFormed = true ∧
      (asmCommands (.tload .odd (List.range 256))).reverse.Perm (asmCommands (.tload .odd (List.range 256)))) ∧
    (∃ t, Runs inverted (asmCommands (.mload (List.range 32))) t) ∧
    (∃ t, Runs inverted (asmCommands (.mload (List.range 32))).reverse t) ∧
    (∃ t, Runs exampleBuilt (asmCommands (.tload .odd (List.range 256))) t) ∧
    ∃ t, Runs exampleBuilt (asmCommands (.tload .odd (List.range 256))).reverse t :=
  ⟨⟨by decide, List.reverse_perm _⟩, ⟨by decide +kernel, List.reverse_perm _⟩, exists_run (by decide +kernel),
    exists_run (by decide +kernel), exists_run (by decide +kernel), exists_run (by decide +kernel)⟩

theorem zeroMatrix_singular : Singular zeroMatrix := by
  rintro ⟨Y, h, _⟩
  have hr := congrArg (fun X : BitMatrix 32 => X[(0 : Fin 32)]) h
  have h0 : (matMul zeroMatrix Y)[(0 : Fin 32)] = 0 := by
    have hz : zeroMatrix[(0 : Fin 32)] = 0 := by decide
    simp only [matMul, Fin.getElem_fin, Vector.getElem_ofFn] at hz ⊢
    rw [hz]
    simp [selectRows]
  rw [h0] at hr
  exact absurd hr (by decide)

theorem reset_inv : Inv State.reset where
  valid h := by cases h
  singular h := by cases h
  fcol _ := rfl
  built b h := by cases b <;> cases h

theorem witness_SingularMatrixHasNoReadableInverse : Inv State.reset ∧ Singular State.reset.M ∧
    (∀ r wd, Instr.mwr r wd ∉ [Instr.minv, .tbld .even, .rst]) ∧
      ∃ t, Runs State.reset ([Instr.minv, .tbld .even, .rst].map encode) t :=
  ⟨reset_inv, zeroMatrix_singular, fun _ _ h => by simp at h, exists_run (by decide +kernel)⟩

theorem witness_BootSequenceYieldsTheInverse :
    ((∃ t, Runs State.reset (asmCommands (.invert ((identityMatrix 32).toList.map BitVec.toNat))) t) ∧
      Invertible (identityMatrix 32)) ∧
    (∃ t, Runs State.reset (asmCommands (.invert (zeroMatrix.toList.map BitVec.toNat))) t) ∧ Singular zeroMatrix := by
  refine ⟨⟨exists_run (by decide +kernel), identityMatrix 32, ?_⟩, exists_run (by decide +kernel), zeroMatrix_singular⟩
  unfold IsInverse
  decide +kernel

end Sys2Proof.Tests
end

section
/-! The reset table of R34: a block that agrees with `State.reset` in the seven fields is the table, and so is what RST
leaves. -/

namespace Sys2Proof.Machine

theorem zeroMatrix_row (r : Row) : zeroMatrix[r] = 0 := by simp [zeroMatrix]

/-- A pair of equal values has that value in each bank. -/
@[simp] theorem PerBank.get_mk_self {α : Type} (v : α) (b : Bank) : (PerBank.mk v v).get b = v := by
  cases b <;> rfl

/-- The table element by element, read off the fields of `State.reset`. -/
theorem isResetBlock_of_sameBlock_reset {s : State} (h : SameBlock State.reset s) : IsResetBlock s where
  M r := by rw [h.matrices.M, State.reset_M, zeroMatrix_row]
  INV r := by rw [h.matrices.INV, State.reset_INV, zeroMatrix_row]
  ISTAT := h.matrices.ISTAT
  FCOL := h.matrices.FCOL
  T b x := by rw [State.entryT, (h.tables b).T, State.reset_T, PerBank.get_mk_self, tableAt_zeroTable]
  IRzero b := by
    rw [State.listIR, (h.tables b).IR, State.reset_IR, PerBank.get_mk_self, listAt_resetRelation, if_pos rfl, allBytes]
  IRother b y hy := by
    rw [State.listIR, (h.tables b).IR, State.reset_IR, PerBank.get_mk_self, listAt_resetRelation, if_neg hy]
  TBUILT b := by rw [(h.tables b).TBUILT, State.reset_TBUILT, PerBank.get_mk_self]

/-- `ISTAT`, `FCOL` and both `TBUILT` are 0 in the table, so every bit of the STATUS word (R30) is 0. -/
theorem statusWord_of_isResetBlock {s : State} (h : IsResetBlock s) : s.statusWord = 0 := by
  have heven : s.TBUILT.even = false := h.TBUILT .even
  have hodd : s.TBUILT.odd = false := h.TBUILT .odd
  rw [State.statusWord, h.ISTAT, h.FCOL, heven, hodd]
  rfl

theorem sameBlock_refl (s : State) : SameBlock s s :=
  ⟨⟨rfl, rfl, rfl, rfl⟩, fun _ => ⟨rfl, rfl, rfl⟩⟩

/-- Every field takes its reset value, from any state (R34, R162). -/
theorem sameBlock_resetBlock (s : State) : SameBlock State.reset s.resetBlock :=
  ⟨⟨rfl, rfl, rfl, rfl⟩, fun _ => ⟨rfl, rfl, rfl⟩⟩

theorem isResetBlock_reset : IsResetBlock State.reset := isResetBlock_of_sameBlock_reset (sameBlock_refl _)

theorem isResetBlock_resetBlock (s : State) : IsResetBlock s.resetBlock :=
  isResetBlock_of_sameBlock_reset (sameBlock_resetBlock s)

/-- The table says nothing about the response. -/
theorem IsResetBlock.withResponse {s : State} (h : IsResetBlock s) (code : RCode) (data : Word) :
    IsResetBlock (s.withResponse code data) :=
  ⟨h.M, h.INV, h.ISTAT, h.FCOL, h.T, h.IRzero, h.IRother, h.TBUILT⟩

/-- Settles O15: `State.reset` is the table, and RST leaves `s.resetBlock`, which agrees with it in all seven fields. -/
theorem resetStateIsTheTable : Obligations.ResetStateIsTheTable := by
  unfold Obligations.ResetStateIsTheTable
  refine ⟨⟨isResetBlock_reset, statusWord_of_isResetBlock isResetBlock_reset, State.reset_rsp⟩, fun s => ?_⟩
  have hrst : IsResetBlock (s.resetBlock.withResponse .OK 0) := (isResetBlock_resetBlock s).withResponse .OK 0
  exact ⟨_, exec_rst s, hrst, statusWord_of_isResetBlock hrst⟩

end Sys2Proof.Machine
end

section
/-! Legal and illegal command words (R75, R77): the opcode map, the fields and the decoder agree; and which word reads
the operand word (R82). -/

namespace Sys2Proof

/-- None of the clauses (a), (b), (c) of R77 applies, field by field: `z = 0`, the opcode is assigned, and what its
format (R72, R73) leaves unused is 0. -/
def FieldsLegal (cw : Word) : Prop :=
  zField cw = 0 ∧
    ((opField cw ∈ [0x00#8, 0x01#8, 0x02#8, 0x12#8] ∧ bField cw = 0 ∧ idxField cw = 0 ∧ immField cw = 0) ∨
      (opField cw ∈ [0x10#8, 0x11#8, 0x13#8] ∧ bField cw = 0 ∧ (idxField cw).extractLsb' 5 3 = 0 ∧
        immField cw = 0) ∨
      opField cw ∈ [0x20#8, 0x24#8] ∨
      (opField cw ∈ [0x21#8, 0x23#8] ∧ immField cw = 0) ∨
      (opField cw = 0x22#8 ∧ idxField cw = 0 ∧ immField cw = 0))

/-- `idx < 32` is `idx[7:5] = 0` (R73). -/
theorem extractLsb'_eq_zero_iff_lt (x : Byte) : x.extractLsb' 5 3 = 0 ↔ x.toNat < 32 := by
  revert x
  decide

theorem and_rowMask_eq_zero_iff (x : Byte) : x &&& 0xE0#8 = 0 ↔ x.extractLsb' 5 3 = 0 := by
  revert x
  decide

/-! The opcode map. -/

/-- The rows of the opcode map by format: five masks, and under each the opcodes of its rows (R72, R75). -/
theorem legalWord_iff_masks (cw : Word) :
    legalWord cw = true ↔
      (∃ op ∈ [0x00#8, 0x01#8, 0x02#8, 0x12#8], cw &&& 0xFFFFFFFF#32 = packWord op 0 0 0) ∨
      (∃ op ∈ [0x10#8, 0x11#8, 0x13#8], cw &&& 0xFFFFE0FF#32 = packWord op 0 0 0) ∨
      (∃ op ∈ [0x20#8, 0x24#8], cw &&& 0xFFFE0000#32 = packWord op 0 0 0) ∨
      (∃ op ∈ [0x21#8, 0x23#8], cw &&& 0xFFFE00FF#32 = packWord op 0 0 0) ∨
      (∃ op ∈ [0x22#8], cw &&& 0xFFFEFFFF#32 = packWord op 0 0 0) := by
  simp only [legalWord, opcodeMap, OpcodeRow.matches, packWord, List.any_cons, List.any_nil, List.mem_cons,
    List.not_mem_nil, exists_eq_or_imp, exists_eq_left, Bool.or_eq_true, Bool.false_eq_true, beq_iff_eq, or_false]
  grind

/-- A mask that keeps `op` and `z` whole: the word matches one of the opcodes when `z = 0`, its opcode is among them and
the other fields are 0 under the mask. -/
theorem exists_op_matches_iff {mask : Word} {b : BitVec 1} {idx imm : Byte}
    (hm : opField mask = BitVec.allOnes 8 ∧ zField mask = BitVec.allOnes 7 ∧ bField mask = b ∧ idxField mask = idx ∧
      immField mask = imm) (cw : Word) (ops : List (BitVec 8)) :
    (∃ op ∈ ops, cw &&& mask = packWord op 0 0 0) ↔
      zField cw = 0 ∧ opField cw ∈ ops ∧ bField cw &&& b = 0 ∧ idxField cw &&& idx = 0 ∧ immField cw &&& imm = 0 := by
  obtain ⟨hop, hz, rfl, rfl, rfl⟩ := hm
  simp only [and_eq_iff_fields, hop, hz, BitVec.and_allOnes, opField_packWord, zField_packWord, bField_packWord,
    idxField_packWord, immField_packWord]
  constructor
  · rintro ⟨op, hmem, rfl, hz, hrest⟩
    exact ⟨hz, hmem, hrest⟩
  · rintro ⟨hz, hmem, hrest⟩
    exact ⟨_, hmem, rfl, hz, hrest⟩

theorem legalWord_iff_fieldsLegal (cw : Word) : legalWord cw = true ↔ FieldsLegal cw := by
  have hZ := exists_op_matches_iff (mask := 0xFFFFFFFF#32) (b := .allOnes 1) (idx := .allOnes 8) (imm := .allOnes 8)
    (by decide) cw
  have hR := exists_op_matches_iff (mask := 0xFFFFE0FF#32) (b := .allOnes 1) (idx := 0xE0#8) (imm := .allOnes 8)
    (by decide) cw
  have hXI := exists_op_matches_iff (mask := 0xFFFE0000#32) (b := 0) (idx := 0) (imm := 0) (by decide) cw
  have hX := exists_op_matches_iff (mask := 0xFFFE00FF#32) (b := 0) (idx := 0) (imm := .allOnes 8) (by decide) cw
  have hB := exists_op_matches_iff (mask := 0xFFFEFFFF#32) (b := 0) (idx := .allOnes 8) (imm := .allOnes 8)
    (by decide) cw
  have hzero : ∀ {w : Nat} (x : BitVec w), x &&& 0 = 0 := fun _ => BitVec.and_zero
  rw [legalWord_iff_masks, hZ, hR, hXI, hX, hB]
  simp only [← and_or_left, BitVec.and_allOnes, hzero, true_and, and_true, and_rowMask_eq_zero_iff, List.mem_singleton,
    FieldsLegal]

/-! The decoder. -/

theorem exists_decodeZ_ok {cw : Word} {i : Instr} :
    (∃ j, decodeZ cw i = .ok j) ↔ bField cw = 0 ∧ idxField cw = 0 ∧ immField cw = 0 := by
  simp only [decodeZ_ok, exists_eq_left]

theorem exists_decodeR_ok {cw : Word} {f : Row → Instr} :
    (∃ j, decodeR cw f = .ok j) ↔ bField cw = 0 ∧ (idxField cw).extractLsb' 5 3 = 0 ∧ immField cw = 0 := by
  simp only [decodeR_ok, extractLsb'_eq_zero_iff_lt]
  constructor
  · rintro ⟨_, r, _, hidx, hb, himm⟩
    exact ⟨hb, by rw [hidx, idxOfRow_toNat]; exact r.isLt, himm⟩
  · rintro ⟨hb, hlt, himm⟩
    exact ⟨_, ⟨_, hlt⟩, rfl, (idxOfRow_mk _ hlt).symm, hb, himm⟩

theorem exists_decodeB_ok {cw : Word} {f : Bank → Instr} :
    (∃ j, decodeB cw f = .ok j) ↔ idxField cw = 0 ∧ immField cw = 0 := by
  simp only [decodeB_ok]
  constructor
  · rintro ⟨_, _, _, _, hz⟩
    exact hz
  · exact fun hz => ⟨_, _, rfl, (bitOfBank_bankOfBit _).symm, hz⟩

theorem exists_decodeX_ok {cw : Word} {f : Bank → Byte → Instr} :
    (∃ j, decodeX cw f = .ok j) ↔ immField cw = 0 := by
  simp only [decodeX_ok]
  constructor
  · rintro ⟨_, _, _, _, _, _, himm⟩
    exact himm
  · exact fun himm => ⟨_, _, _, rfl, (bitOfBank_bankOfBit _).symm, rfl, himm⟩

/-- The converse of `decode_ok` as well: what the decoder accepts, by opcode. -/
theorem decode_ok_iff {cw wd : Word} {j : Instr} :
    decode cw wd = .ok j ↔ zField cw = 0 ∧
      ((opField cw = 0x00 ∧ decodeZ cw .nop = .ok j) ∨ (opField cw = 0x01 ∧ decodeZ cw .stat = .ok j) ∨
        (opField cw = 0x02 ∧ decodeZ cw .rst = .ok j) ∨
        (opField cw = 0x10 ∧ decodeR cw (fun r => .mwr r wd) = .ok j) ∨
        (opField cw = 0x11 ∧ decodeR cw .mrd = .ok j) ∨ (opField cw = 0x12 ∧ decodeZ cw .minv = .ok j) ∨
        (opField cw = 0x13 ∧ decodeR cw .ird = .ok j) ∨ (opField cw = 0x20 ∧ decodeXI cw .twr = .ok j) ∨
        (opField cw = 0x21 ∧ decodeX cw .trd = .ok j) ∨ (opField cw = 0x22 ∧ decodeB cw .tbld = .ok j) ∨
        (opField cw = 0x23 ∧ decodeX cw .cls = .ok j) ∨ (opField cw = 0x24 ∧ decodeXI cw .prd = .ok j)) := by
  refine ⟨decode_ok, fun ⟨hz, h⟩ => ?_⟩
  rcases h with ⟨hop, h⟩ | ⟨hop, h⟩ | ⟨hop, h⟩ | ⟨hop, h⟩ | ⟨hop, h⟩ | ⟨hop, h⟩ | ⟨hop, h⟩ | ⟨hop, h⟩ | ⟨hop, h⟩ |
    ⟨hop, h⟩ | ⟨hop, h⟩ | ⟨hop, h⟩ <;> simp [decode, hz, hop, h]

/-- The opcodes grouped by format, as R72 lists them. -/
theorem exists_decode_ok_iff (cw wd : Word) : (∃ i, decode cw wd = .ok i) ↔ FieldsLegal cw := by
  simp only [decode_ok_iff, exists_and_left, exists_or, exists_decodeZ_ok, exists_decodeR_ok, exists_decodeB_ok,
    exists_decodeX_ok, decodeXI, Except.ok.injEq, exists_eq', and_true, FieldsLegal, List.mem_cons, List.not_mem_nil]
  refine and_congr_right fun _ => ?_
  grind

/-- The decoder refuses the illegal words and no other, whatever the operand word (R77, R81). -/
theorem legalWord_eq_false_iff (cw wd : Word) : legalWord cw = false ↔ ∃ e, decode cw wd = .error e := by
  have hok : legalWord cw = true ↔ ∃ i, decode cw wd = .ok i :=
    (legalWord_iff_fieldsLegal cw).trans (exists_decode_ok_iff cw wd).symm
  rw [← Bool.not_eq_true, hok]
  cases decode cw wd <;> simp

/-! The operand word. -/

/-- A format R word that is refused is refused for every command of the format. -/
theorem decodeR_congr_of_refused {cw : Word} {f : Row → Instr} (h : ∀ r, decodeR cw f ≠ .ok (f r)) (g : Row → Instr) :
    decodeR cw f = decodeR cw g := by
  unfold decodeR at h ⊢
  split_ifs with hlt hz
  · exact absurd (by rw [dif_pos hlt, if_pos hz]) (h ⟨_, hlt⟩)
  · rfl
  · rfl

/-- Only the branch of opcode `0x10` reads the operand word. -/
theorem decode_eq_of_not_mwr {cw wd : Word} (h : ∀ r w, decode cw wd ≠ .ok (.mwr r w)) (wd' : Word) :
    decode cw wd = decode cw wd' := by
  by_cases hmwr : zField cw = 0 ∧ opField cw = 0x10#8
  · have hdec : ∀ w, decode cw w = decodeR cw fun r => .mwr r w := fun w => by simp [decode, hmwr.1, hmwr.2]
    rw [hdec wd, hdec wd']
    exact decodeR_congr_of_refused (fun r => hdec wd ▸ h r wd) _
  · unfold decode
    by_cases hz : zField cw = 0
    · have hop : opField cw ≠ 0x10#8 := fun hop => hmwr ⟨hz, hop⟩
      simp only [if_neg hop]
    · simp only [if_pos hz]

end Sys2Proof

namespace Sys2Proof.Machine

/-- Settles O5: the three readings of "legal" agree, and a word that the decoder refuses is answered by the step. -/
theorem illegalWordsAnswerErrIllegal : Obligations.IllegalWordsAnswerErrIllegal := by
  unfold Obligations.IllegalWordsAnswerErrIllegal
  refine ⟨legalWord_iff_fieldsLegal, legalWord_eq_false_iff, fun s cw wd hill => ?_⟩
  obtain ⟨e, he⟩ := (legalWord_eq_false_iff cw wd).mp hill
  exact step_present_error he

/-- Settles O7: a word that is not an MWR decodes the same, accepted or refused, and the step sees the operand word
through the decoder only. -/
theorem operandWordReadByMwrOnly : Obligations.OperandWordReadByMwrOnly := by
  unfold Obligations.OperandWordReadByMwrOnly
  intro s cw wd wd' h
  have hdec := decode_eq_of_not_mwr h wd'
  cases hd : decode cw wd with
  | ok i => rw [step_present_ok (c := ⟨cw, wd⟩) hd, step_present_ok (c := ⟨cw, wd'⟩) (hdec.symm.trans hd)]
  | error e => rw [step_present_error (c := ⟨cw, wd⟩) hd, step_present_error (c := ⟨cw, wd'⟩) (hdec.symm.trans hd)]

end Sys2Proof.Machine
end

section
/-! Loading by pseudo-instruction (R84): the expansions of `mload` and `tload` row by row and entry by entry, and where
a run of their commands ends, in any order. -/

namespace Sys2Proof.Machine

/-! The expansions. -/

/-- The MWR of the `k`-th row stands at position `k`. -/
theorem rowWrites_eq_map (n : Nat) (ws : List Nat) :
    rowWrites n ws = (List.range ws.length).map fun k => .mwr (asmRow (n + k)) (asmWord (ws.getD k 0)) := by
  induction ws generalizing n with
  | nil => rfl
  | cons w ws ih =>
    rw [rowWrites, ih, List.length_cons, List.range_succ_eq_map, List.map_cons, List.map_map]
    simp [Function.comp_def, Nat.add_assoc, Nat.add_comm 1]

theorem entryWrites_eq_map (b : Bank) (n : Nat) (vs : List Nat) :
    entryWrites b n vs = (List.range vs.length).map fun k => .twr b (asmByte (n + k)) (asmByte (vs.getD k 0)) := by
  induction vs generalizing n with
  | nil => rfl
  | cons v vs ih =>
    rw [entryWrites, ih, List.length_cons, List.range_succ_eq_map, List.map_cons, List.map_map]
    simp [Function.comp_def, Nat.add_assoc, Nat.add_comm 1]

theorem length_of_mload_wellFormed {ws : List Nat} (h : (Asm.mload ws).wellFormed = true) : ws.length = 32 := by
  rw [Asm.wellFormed, rowsWellFormed, Bool.and_eq_true, decide_eq_true_eq] at h
  exact h.1

theorem length_of_tload_wellFormed {b : Bank} {vs : List Nat} (h : (Asm.tload b vs).wellFormed = true) :
    vs.length = 256 := by
  rw [Asm.wellFormed, entriesWellFormed, Bool.and_eq_true, decide_eq_true_eq] at h
  exact h.1

/-- What `mload` gives row `r`. -/
def loadedRow (ws : List Nat) (r : Row) : Word := BitVec.ofNat 32 (ws.getD r.val 0)

/-- What `tload` gives entry `x`. -/
def loadedEntry (vs : List Nat) (x : Byte) : Byte := BitVec.ofNat 8 (vs.getD x.toNat 0)

theorem asmCommands_mload {ws : List Nat} (h : (Asm.mload ws).wellFormed = true) :
    asmCommands (.mload ws) = (List.finRange 32).map fun r => encode (.mwr r (loadedRow ws r)) := by
  show (rowWrites 0 ws).map encode = _
  rw [rowWrites_eq_map, length_of_mload_wellFormed h, ← List.map_coe_finRange_eq_range, List.map_map, List.map_map]
  refine List.map_congr_left fun r _ => ?_
  simp [asmRow, asmWord, loadedRow]

theorem asmCommands_tload {b : Bank} {vs : List Nat} (h : (Asm.tload b vs).wellFormed = true) :
    asmCommands (.tload b vs) =
      (List.range 256).map fun x => encode (.twr b (BitVec.ofNat 8 x) (BitVec.ofNat 8 (vs.getD x 0))) := by
  show (entryWrites b 0 vs).map encode = _
  rw [entryWrites_eq_map, length_of_tload_wellFormed h, List.map_map]
  simp [Function.comp_def, asmByte]

theorem asmCommands_tload_allBytes {b : Bank} {vs : List Nat} (h : (Asm.tload b vs).wellFormed = true) :
    asmCommands (.tload b vs) = allBytes.map fun x => encode (.twr b x (loadedEntry vs x)) := by
  rw [asmCommands_tload h, allBytes, List.map_map]
  refine List.map_congr_left fun k hk => ?_
  have hlt : k % 2 ^ 8 = k := Nat.mod_eq_of_lt (List.mem_range.mp hk)
  simp only [Function.comp_apply, loadedEntry, BitVec.toNat_ofNat, hlt]

/-! Writing some rows of a matrix, or some entries of a table, one after another. -/

/-- Each row listed takes its value under `f`. -/
def writeRows (f : Row → Word) (X : BitMatrix 32) (rs : List Row) : BitMatrix 32 :=
  rs.foldl (fun X (r : Row) => X.set r (f r)) X

/-- Each entry listed takes its value under `f`. -/
def writeEntries (f : Byte → Byte) (t : Table) (xs : List Byte) : Table :=
  xs.foldl (fun t x => tableSet t x (f x)) t

theorem writeRows_getElem (f : Row → Word) (X : BitMatrix 32) (rs : List Row) (r : Row) :
    (writeRows f X rs)[r] = if r ∈ rs then f r else X[r] := by
  induction rs generalizing X with
  | nil => simp [writeRows]
  | cons q rs ih =>
    rw [writeRows, List.foldl_cons, ← writeRows, ih]
    by_cases hq : q = r
    · subst hq; simp
    · simp [Fin.val_inj, hq, Ne.symm hq]

theorem tableAt_writeEntries (f : Byte → Byte) (t : Table) (xs : List Byte) (x : Byte) :
    tableAt (writeEntries f t xs) x = if x ∈ xs then f x else tableAt t x := by
  induction xs generalizing t with
  | nil => simp [writeEntries]
  | cons y xs ih =>
    rw [writeEntries, List.foldl_cons, ← writeEntries, ih, tableAt_tableSet]
    by_cases hy : y = x
    · subst hy; simp
    · simp [hy, Ne.symm hy]

/-- Writes of every row leave nothing of the matrix that was there, so their order does not show. -/
theorem writeRows_eq_of_complete {f : Row → Word} {rs rs' : List Row} (h : ∀ r, r ∈ rs) (h' : ∀ r, r ∈ rs')
    (X : BitMatrix 32) : writeRows f X rs = writeRows f X rs' := by
  apply Vector.ext
  intro i hi
  have hrow : ∀ {qs : List Row}, (∀ r, r ∈ qs) → (writeRows f X qs)[i] = f ⟨i, hi⟩ := fun {qs} hq =>
    (writeRows_getElem f X qs ⟨i, hi⟩).trans (if_pos (hq _))
  rw [hrow h, hrow h']

theorem writeEntries_eq_of_complete {f : Byte → Byte} {xs xs' : List Byte} (h : ∀ x, x ∈ xs) (h' : ∀ x, x ∈ xs')
    (t : Table) : writeEntries f t xs = writeEntries f t xs' :=
  table_ext fun x => by rw [tableAt_writeEntries, tableAt_writeEntries, if_pos (h x), if_pos (h' x)]

/-! Runs of MWR and of TWR commands. -/

theorem runs_deterministic {s t u : State} {cs : List Command} (ht : Runs s cs t) (hu : Runs s cs u) : t = u :=
  next_injective (Eq.trans (Eq.symm ht) hu)

theorem decode_encode_mwr (r : Row) (w : Word) :
    decode (encode (.mwr r w)).cw (encode (.mwr r w)).wd = .ok (.mwr r w) := by
  simp [decode, encode, encodeWord, encodeOperand, decodeR]

theorem decode_encode_twr (b : Bank) (x v : Byte) :
    decode (encode (.twr b x v)).cw (encode (.twr b x v)).wd = .ok (.twr b x v) := by
  simp [decode, encode, encodeWord, encodeOperand, decodeXI]

theorem step_present_mwr (s : State) (r : Row) (w : Word) :
    step (s.present (encode (.mwr r w))) = .next ((s.setRowM r w).clearInverse.withResponse .OK 0) :=
  step_present_ok (decode_encode_mwr r w)

theorem step_present_twr (s : State) (b : Bank) (x v : Byte) :
    step (s.present (encode (.twr b x v))) = .next (((s.setEntryT b x v).setBuilt b false).withResponse .OK 0) :=
  step_present_ok (decode_encode_twr b x v)

/-- The state after the MWR commands of the rows `rs`, at least one. -/
def State.rowsLoaded (s : State) (f : Row → Word) (rs : List Row) : State :=
  { s with M := writeRows f s.M rs, ISTAT := .NONE, FCOL := 0, rsp := some ⟨.OK, 0⟩ }

/-- The state after the TWR commands of the entries `xs` of bank `b`, at least one. -/
def State.entriesLoaded (s : State) (b : Bank) (f : Byte → Byte) (xs : List Byte) : State :=
  { s with
    T := s.T.set b (writeEntries f (s.T.get b) xs)
    TBUILT := s.TBUILT.set b false
    rsp := some ⟨.OK, 0⟩ }

/-- By induction over the rows that follow the first, from the state that the first MWR leaves. -/
theorem runs_mwr_cons (s : State) (f : Row → Word) (r : Row) (rs : List Row) :
    Runs s ((r :: rs).map fun r => encode (.mwr r (f r))) (s.rowsLoaded f (r :: rs)) := by
  induction rs generalizing s r with
  | nil => exact (runs_cons _ _ _ _).mpr ⟨_, step_present_mwr s r (f r), (runs_nil _ _).mpr rfl⟩
  | cons q rs ih => exact (runs_cons _ _ _ _).mpr ⟨_, step_present_mwr s r (f r), ih _ q⟩

theorem runs_twr_cons (s : State) (b : Bank) (f : Byte → Byte) (x : Byte) (xs : List Byte) :
    Runs s ((x :: xs).map fun x => encode (.twr b x (f x))) (s.entriesLoaded b f (x :: xs)) := by
  induction xs generalizing s x with
  | nil => exact (runs_cons _ _ _ _).mpr ⟨_, step_present_twr s b x (f x), (runs_nil _ _).mpr rfl⟩
  | cons y xs ih =>
    refine (runs_cons _ _ _ _).mpr ⟨_, step_present_twr s b x (f x), ?_⟩
    have h := ih (((s.setEntryT b x (f x)).setBuilt b false).withResponse .OK 0) y
    simpa [State.entriesLoaded, writeEntries] using h

/-! The commands of `mload` and `tload` in any order. -/

theorem runs_of_perm_mload {ws : List Nat} {cs : List Command} (hw : (Asm.mload ws).wellFormed = true)
    (hp : cs.Perm (asmCommands (.mload ws))) :
    ∃ rs : List Row, (∀ r, r ∈ rs) ∧ ∀ s : State, Runs s cs (s.rowsLoaded (loadedRow ws) rs) := by
  rw [asmCommands_mload hw] at hp
  obtain ⟨rs, rfl, hperm⟩ := (congrFun₂ (List.eq_map_comp_perm _) cs _).mpr hp
  have hmem : ∀ r, r ∈ rs := fun r => hperm.mem_iff.mpr (List.mem_finRange r)
  refine ⟨rs, hmem, fun s => ?_⟩
  cases rs with
  | nil => cases hmem 0
  | cons r rs => exact runs_mwr_cons s _ r rs

theorem runs_of_perm_tload {b : Bank} {vs : List Nat} {cs : List Command} (hw : (Asm.tload b vs).wellFormed = true)
    (hp : cs.Perm (asmCommands (.tload b vs))) :
    ∃ xs : List Byte, (∀ x, x ∈ xs) ∧ ∀ s : State, Runs s cs (s.entriesLoaded b (loadedEntry vs) xs) := by
  rw [asmCommands_tload_allBytes hw] at hp
  obtain ⟨xs, rfl, hperm⟩ := (congrFun₂ (List.eq_map_comp_perm _) cs _).mpr hp
  have hmem : ∀ x, x ∈ xs := fun x => hperm.mem_iff.mpr (mem_allBytes x)
  refine ⟨xs, hmem, fun s => ?_⟩
  cases xs with
  | nil => cases hmem 0
  | cons x xs => exact runs_twr_cons s b _ x xs

/-- `mload` in two orders from one state ends in one state. -/
theorem mload_order_irrelevant {s t u : State} {ws : List Nat} {cs ds : List Command}
    (hw : (Asm.mload ws).wellFormed = true) (hc : cs.Perm (asmCommands (.mload ws)))
    (hd : ds.Perm (asmCommands (.mload ws))) (ht : Runs s cs t) (hu : Runs s ds u) : t = u := by
  obtain ⟨rs, hrs, hcs⟩ := runs_of_perm_mload hw hc
  obtain ⟨qs, hqs, hds⟩ := runs_of_perm_mload hw hd
  rw [runs_deterministic ht (hcs s), runs_deterministic hu (hds s), State.rowsLoaded, State.rowsLoaded,
    writeRows_eq_of_complete hrs hqs]

/-- `tload` in two orders from one state ends in one state. -/
theorem tload_order_irrelevant {s t u : State} {b : Bank} {vs : List Nat} {cs ds : List Command}
    (hw : (Asm.tload b vs).wellFormed = true) (hc : cs.Perm (asmCommands (.tload b vs)))
    (hd : ds.Perm (asmCommands (.tload b vs))) (ht : Runs s cs t) (hu : Runs s ds u) : t = u := by
  obtain ⟨xs, hxs, hcs⟩ := runs_of_perm_tload hw hc
  obtain ⟨ys, hys, hds⟩ := runs_of_perm_tload hw hd
  rw [runs_deterministic ht (hcs s), runs_deterministic hu (hds s), State.entriesLoaded, State.entriesLoaded,
    writeEntries_eq_of_complete hxs hys]

/-- The end state of `mload`, field by field. -/
theorem mload_loads {ws : List Nat} {cs : List Command} (hw : (Asm.mload ws).wellFormed = true)
    (hp : cs.Perm (asmCommands (.mload ws))) (s : State) :
    ∃ t, Runs s cs t ∧ (∀ r : Row, t.M[r] = loadedRow ws r) ∧ t.INV = s.INV ∧ t.ISTAT = .NONE ∧ t.FCOL = 0 ∧
      SameTableGroup s t ∧ t.host = s.host ∧ t.rsp = some ⟨.OK, 0⟩ := by
  obtain ⟨rs, hmem, hrun⟩ := runs_of_perm_mload hw hp
  exact ⟨_, hrun s, fun r => (writeRows_getElem _ _ rs r).trans (if_pos (hmem r)), rfl, rfl, rfl,
    fun _ => ⟨rfl, rfl, rfl⟩, rfl, rfl⟩

/-- The end state of `tload`, field by field. -/
theorem tload_loads {b : Bank} {vs : List Nat} {cs : List Command} (hw : (Asm.tload b vs).wellFormed = true)
    (hp : cs.Perm (asmCommands (.tload b vs))) (s : State) :
    ∃ t, Runs s cs t ∧ (∀ x : Byte, t.entryT b x = loadedEntry vs x) ∧ t.IR = s.IR ∧ t.TBUILT.get b = false ∧
      (∀ b', b' ≠ b → SameBank b' s t) ∧ SameMatrixGroup s t ∧ t.host = s.host ∧ t.rsp = some ⟨.OK, 0⟩ := by
  obtain ⟨xs, hmem, hrun⟩ := runs_of_perm_tload hw hp
  refine ⟨_, hrun s, fun x => ?_, rfl, PerBank.get_set_same _ _ _, fun b' hb => ?_, ⟨rfl, rfl, rfl, rfl⟩, rfl, rfl⟩
  · rw [State.entryT, State.entriesLoaded, PerBank.get_set_same, tableAt_writeEntries, if_pos (hmem x)]
  · exact ⟨PerBank.get_set_other _ hb _, rfl, PerBank.get_set_other _ hb _⟩

/-- Settles O56: the commands are those of every row or entry once, so in any order each is written with its own value
and with no other; the expansions of `invert` and `build` end in one command more. -/
theorem pseudoInstructionsLoad : Obligations.PseudoInstructionsLoad := by
  unfold Obligations.PseudoInstructionsLoad
  refine ⟨fun _ => asmCommands_mload, fun _ _ => asmCommands_tload, fun s _ _ hw hp => mload_loads hw hp s,
    fun s _ _ _ hw hp => tload_loads hw hp s, ?_, fun _ => List.map_append, fun _ _ => List.map_append⟩
  rintro s t u a cs ds hw (⟨ws, rfl⟩ | ⟨b, vs, rfl⟩) hc hd ht hu
  · exact mload_order_irrelevant hw hc hd ht hu
  · exact tload_order_irrelevant hw hc hd ht hu

end Sys2Proof.Machine
end

section
/-! The elimination of R106 is right: its loop invariant (R107), that what it returns is the inverse (R108), and that
the column at which it fails is a sum of columns before it, so the matrix is singular (R109). For every dimension. -/

namespace Sys2Proof.Machine

variable {n : Nat}

/-! The product, and the inverse as R105 has it. -/

theorem matMul_row (X Y : BitMatrix n) (i : Fin n) : (matMul X Y)[i] = selectRows X[i] Y := by simp [matMul]

theorem bitMatrix_ext {X Y : BitMatrix n} (h : ∀ i : Fin n, X[i] = Y[i]) : X = Y :=
  Vector.ext fun i hi => h ⟨i, hi⟩

theorem matMul_assoc (X Y Z : BitMatrix n) : matMul (matMul X Y) Z = matMul X (matMul Y Z) :=
  toZMod_inj (by simp only [toZMod_matMul, Matrix.mul_assoc])

@[simp] theorem matMul_identityMatrix (X : BitMatrix n) : matMul X (identityMatrix n) = X :=
  toZMod_inj (by rw [toZMod_matMul, toZMod_identityMatrix, Matrix.mul_one])

@[simp] theorem identityMatrix_matMul (X : BitMatrix n) : matMul (identityMatrix n) X = X :=
  toZMod_inj (by rw [toZMod_matMul, toZMod_identityMatrix, Matrix.one_mul])

theorem applyMatrix_matMul (X Y : BitMatrix n) (v : BitVec n) :
    applyMatrix (matMul X Y) v = applyMatrix X (applyMatrix Y v) :=
  vecZMod_inj (by simp only [vecZMod_applyMatrix, toZMod_matMul, Matrix.mulVec_mulVec])

theorem matMul_eq_identityMatrix_comm {X Y : BitMatrix n} :
    matMul X Y = identityMatrix n ↔ matMul Y X = identityMatrix n := by
  have h : ∀ P Q : BitMatrix n, matMul P Q = identityMatrix n ↔ toZMod P * toZMod Q = 1 := fun P Q => by
    rw [← toZMod_matMul, ← toZMod_identityMatrix]
    exact ⟨congrArg toZMod, toZMod_inj⟩
  rw [h, h, mul_eq_one_comm]

/-- Either one of the two equations makes an inverse (R105). -/
theorem isInverse_of_matMul_eq {X Y : BitMatrix n} (h : matMul X Y = identityMatrix n) : IsInverse X Y :=
  ⟨h, matMul_eq_identityMatrix_comm.mp h⟩

theorem IsInverse.symm {X Y : BitMatrix n} (h : IsInverse X Y) : IsInverse Y X := And.symm h

theorem invertible_identityMatrix : Invertible (identityMatrix n) :=
  ⟨_, isInverse_of_matMul_eq (matMul_identityMatrix _)⟩

theorem entry_identityMatrix (i j : Fin n) : entry (identityMatrix n) i j = decide (i = j) := by
  rw [entry, identityMatrix_row, one_shiftLeft_getLsbD]

/-! Row operations: the swap, and the addition of one row to others. -/

/-- Row `c` added to every other row that `m` marks: what a column step does to each buffer (R106). -/
def addRowTo (c : Fin n) (m : Fin n → Bool) (X : BitMatrix n) : BitMatrix n :=
  Vector.ofFn fun i => if i ≠ c ∧ m i = true then X[i] ^^^ X[c] else X[i]

theorem addRowTo_row (c : Fin n) (m : Fin n → Bool) (X : BitMatrix n) (i : Fin n) :
    (addRowTo c m X)[i] = if i ≠ c ∧ m i = true then X[i] ^^^ X[c] else X[i] := by
  simp [addRowTo]

theorem eliminate_eq_addRowTo (c : Fin n) (B : Buffers n) :
    eliminate c B =
      ⟨addRowTo c (fun r => entry B.L r c) B.L, addRowTo c (fun r => entry B.L r c) B.A⟩ := by
  have hL := bitMatrix_ext fun i => (eliminate_L c B i).trans (addRowTo_row c (fun r => entry B.L r c) B.L i).symm
  have hA := bitMatrix_ext fun i => (eliminate_A c B i).trans (addRowTo_row c (fun r => entry B.L r c) B.A i).symm
  rw [← hL, ← hA]

/-- An operation on the rows of a matrix: it passes through a product from the left, and done twice it is undone. -/
structure IsRowOperation (f : BitMatrix n → BitMatrix n) : Prop where
  comm_matMul : ∀ X Y, matMul (f X) Y = f (matMul X Y)
  involutive : ∀ X, f (f X) = X

theorem isRowOperation_swapRows (i j : Fin n) : IsRowOperation fun X : BitMatrix n => swapRows X i j where
  comm_matMul X Y := bitMatrix_ext fun r => by
    simp only [matMul_row, swapRows_row]
    split_ifs <;> rfl
  involutive X := bitMatrix_ext fun r => by
    simp only [swapRows_row]
    split_ifs <;> simp_all

theorem isRowOperation_addRowTo (c : Fin n) (m : Fin n → Bool) : IsRowOperation (addRowTo c m) where
  comm_matMul X Y := bitMatrix_ext fun r => by
    simp only [matMul_row, addRowTo_row]
    split_ifs
    · exact selectRows_xor _ _ _
    · rfl
  involutive X := bitMatrix_ext fun r => by
    simp only [addRowTo_row, ne_eq, not_true_eq_false, false_and, if_false]
    split_ifs
    · rw [BitVec.xor_assoc, BitVec.xor_self, BitVec.xor_zero]
    · rfl

/-- A row operation is the product with an invertible matrix, its own value at the identity. -/
theorem IsRowOperation.invertible {f : BitMatrix n → BitMatrix n} (hf : IsRowOperation f) {A : BitMatrix n}
    (hA : Invertible A) : Invertible (f A) := by
  obtain ⟨Y, hY, -⟩ := hA
  refine ⟨matMul Y (f (identityMatrix n)), isInverse_of_matMul_eq ?_⟩
  calc matMul (f A) (matMul Y (f (identityMatrix n)))
      = f (matMul (matMul A Y) (f (identityMatrix n))) := by rw [hf.comm_matMul, matMul_assoc]
    _ = f (f (identityMatrix n)) := by rw [hY, identityMatrix_matMul]
    _ = identityMatrix n := hf.involutive _

/-! The loop invariant (R107), over the columns done, which are those before the next one. -/

theorem lt_of_mem_done {done cs : List (Fin n)} {c j : Fin n} (hs : (done ++ c :: cs).Pairwise (· < ·))
    (hj : j ∈ done) : j < c := by
  obtain ⟨-, -, h⟩ := List.pairwise_append.mp hs
  exact h j hj c List.mem_cons_self

theorem mem_done_of_lt {done cs : List (Fin n)} {c j : Fin n} (hs : List.finRange n = done ++ c :: cs) (hj : j < c) :
    j ∈ done := by
  have hsorted : (done ++ c :: cs).Pairwise (· < ·) := hs ▸ List.pairwise_lt_finRange n
  obtain ⟨-, hrest, -⟩ := List.pairwise_append.mp hsorted
  have hmem : j ∈ done ++ c :: cs := hs ▸ List.mem_finRange j
  rcases List.mem_append.mp hmem with hmem | hmem
  · exact hmem
  · rcases List.mem_cons.mp hmem with rfl | hmem
    · exact absurd hj (lt_irrefl _)
    · exact absurd ((List.pairwise_cons.mp hrest).1 j hmem) hj.asymm

/-- R107 (a), (b), (c) after the columns `done`. -/
structure EliminationInvariant (X : BitMatrix n) (done : List (Fin n)) (B : Buffers n) : Prop where
  product : matMul B.A X = B.L
  columns : ∀ j ∈ done, ∀ i, entry B.L i j = decide (i = j)
  invertible : Invertible B.A

theorem eliminationInvariant_start (X : BitMatrix n) : EliminationInvariant X [] (startBuffers X) where
  product := identityMatrix_matMul X
  columns _ h := absurd h List.not_mem_nil
  invertible := invertible_identityMatrix

/-- The swap leaves the columns done, since both rows are at or after `c`, and so have only zeros there. -/
theorem entry_swapRows_of_unit {L : BitMatrix n} {c p j : Fin n} (hcp : c ≤ p) (hjc : j < c)
    (h : ∀ i, entry L i j = decide (i = j)) (i : Fin n) : entry (swapRows L c p) i j = decide (i = j) := by
  have hc : entry L c j = false := by simp [h, hjc.ne']
  have hp : entry L p j = false := by simp [h, (hjc.trans_le hcp).ne']
  simp only [entry] at h hc hp ⊢
  rw [swapRows_row]
  split_ifs with h1 h2
  · rw [hc]; simp [h1, (hjc.trans_le hcp).ne']
  · rw [hp]; simp [h2, hjc.ne']
  · exact h i

/-- The swap brings the pivot to row `c`. -/
theorem entry_swapRows_pivot (L : BitMatrix n) (c p : Fin n) : entry (swapRows L c p) c c = entry L p c := by
  simp only [entry, swapRows_row]
  split_ifs with h
  · rw [← h]
  · rfl

/-- Every row but `c` gets row `c` added where it has a one in column `c`. -/
theorem entry_eliminate (c : Fin n) (B : Buffers n) (i j : Fin n) :
    entry (eliminate c B).L i j = (entry B.L i j ^^ (decide (i ≠ c) && entry B.L i c && entry B.L c j)) := by
  by_cases h : i ≠ c ∧ entry B.L i c = true
  · have hrow : (eliminate c B).L[i] = B.L[i] ^^^ B.L[c] := (eliminate_L c B i).trans (if_pos h)
    have hmark : (decide (i ≠ c) && entry B.L i c) = true := by simpa using h
    rw [hmark, Bool.true_and, entry, hrow, BitVec.getLsbD_xor, entry, entry]
  · have hrow : (eliminate c B).L[i] = B.L[i] := (eliminate_L c B i).trans (if_neg h)
    have hmark : (decide (i ≠ c) && entry B.L i c) = false := by simpa using h
    rw [hmark, Bool.false_and, Bool.xor_false, entry, entry, hrow]

/-- A column step carries the invariant to one column more. -/
theorem EliminationInvariant.columnStep {X : BitMatrix n} {done : List (Fin n)} {B : Buffers n} {c p : Fin n}
    (h : EliminationInvariant X done B) (hdone : ∀ j ∈ done, j < c) (hp : pivotRow B.L c = some p) :
    EliminationInvariant X (done ++ [c]) (eliminate c (swapBoth B c p)) := by
  obtain ⟨hcp, hpc, -⟩ := pivotRow_some hp
  have hswap := isRowOperation_swapRows c p
  have hadd := isRowOperation_addRowTo c fun r => entry (swapBoth B c p).L r c
  refine ⟨?_, fun j hj i => ?_, ?_⟩
  · rw [eliminate_eq_addRowTo]
    show matMul (addRowTo c _ (swapRows B.A c p)) X = addRowTo c _ (swapRows B.L c p)
    rw [hadd.comm_matMul, hswap.comm_matMul, h.product]
  · rw [entry_eliminate]
    rcases List.mem_append.mp hj with hj | hj
    · have hunit : ∀ i, entry (swapBoth B c p).L i j = decide (i = j) :=
        entry_swapRows_of_unit hcp (hdone j hj) (h.columns j hj)
      simp [hunit, (hdone j hj).ne']
    · obtain rfl := List.mem_singleton.mp hj
      have hpivot : entry (swapBoth B j p).L j j = true := (entry_swapRows_pivot B.L j p).trans hpc
      rw [hpivot]
      by_cases hij : i = j
      · subst hij
        simp [hpivot]
      · simp [hij]
  · rw [eliminate_eq_addRowTo]
    exact hadd.invertible (hswap.invertible h.invertible)

/-- The invariant carried over the columns `cs`, which come after the columns `done` in increasing order. -/
theorem EliminationInvariant.columnSteps_ok {X : BitMatrix n} {done cs : List (Fin n)} {B B' : Buffers n}
    (h : EliminationInvariant X done B) (hs : (done ++ cs).Pairwise (· < ·)) (hok : columnSteps cs B = .ok B') :
    EliminationInvariant X (done ++ cs) B' := by
  induction cs generalizing done B with
  | nil =>
    cases hok
    rwa [List.append_nil]
  | cons c cs ih =>
    obtain ⟨p, hp, hok⟩ := columnSteps_cons_ok hok
    have hstep := h.columnStep (fun _ => lt_of_mem_done hs) hp
    rw [List.append_cons] at hs ⊢
    exact ih hstep hs hok

/-- A run that fails at `k` meets the invariant there, with no pivot row for `k`. -/
theorem EliminationInvariant.columnSteps_error {X : BitMatrix n} {done cs : List (Fin n)} {B : Buffers n} {k : Fin n}
    (h : EliminationInvariant X done B) (hs : (done ++ cs).Pairwise (· < ·)) (herr : columnSteps cs B = .error k) :
    ∃ done' cs' B', done ++ cs = done' ++ k :: cs' ∧ EliminationInvariant X done' B' ∧
      pivotRow B'.L k = none := by
  induction cs generalizing done B with
  | nil => cases herr
  | cons c cs ih =>
    rcases columnSteps_cons_error herr with ⟨rfl, hnone⟩ | ⟨p, hp, herr⟩
    · exact ⟨done, cs, B, rfl, h, hnone⟩
    · have hstep := h.columnStep (fun _ => lt_of_mem_done hs) hp
      rw [List.append_cons] at hs ⊢
      exact ih hstep hs herr

/-! What the elimination returns (R108). -/

/-- After the last column `L` is the identity, so `A * X` is (R107, R108). -/
theorem isInverse_of_gf2Invert_ok {X A : BitMatrix n} (h : gf2Invert X = .ok A) : IsInverse X A := by
  obtain ⟨B, hok, rfl⟩ := gf2Invert_ok_iff.mp h
  have hB := (eliminationInvariant_start X).columnSteps_ok (List.pairwise_lt_finRange n) hok
  have hL : B.L = identityMatrix n := by
    apply toZMod_inj
    rw [toZMod_identityMatrix]
    funext i j
    simp [toZMod, hB.columns j (List.mem_finRange j) i, Matrix.one_apply]
  exact (isInverse_of_matMul_eq (hB.product.trans hL)).symm

/-! The column at which it fails (R109). -/

theorem applyMatrix_one_shiftLeft_getLsbD (X : BitMatrix n) (i c : Fin n) :
    (applyMatrix X (1#n <<< c.val)).getLsbD i.val = entry X i c := by
  rw [applyMatrix_getLsbD, parity, xorOver_single _ c fun j hj => ?_]
  · rw [BitVec.getLsbD_and, one_shiftLeft_getLsbD, decide_eq_true rfl, Bool.and_true, entry]
  · rw [BitVec.getLsbD_and, one_shiftLeft_getLsbD, decide_eq_false hj.symm, Bool.and_false]

/-- A column is a sum of columns before it when the matrix maps its unit vector and some vector of bits before it to the
same vector. -/
theorem columnIsSumBefore_iff {X : BitMatrix n} {c : Fin n} :
    ColumnIsSumBefore X c ↔ ∃ v : BitVec n, (∀ j : Fin n, v.getLsbD j.val = true → j < c) ∧
      applyMatrix X (1#n <<< c.val) = applyMatrix X v := by
  refine exists_congr fun v => and_congr_right fun _ => ?_
  simp only [← applyMatrix_one_shiftLeft_getLsbD, ← applyMatrix_getLsbD]
  exact ⟨fun h => BitVec.eq_of_getLsbD_eq fun i hi => h ⟨i, hi⟩, fun h i => by rw [h]⟩

/-- A relation among the columns stays under a product from the left. -/
theorem ColumnIsSumBefore.matMul_left {X : BitMatrix n} {c : Fin n} (h : ColumnIsSumBefore X c) (P : BitMatrix n) :
    ColumnIsSumBefore (matMul P X) c := by
  obtain ⟨v, hv, heq⟩ := columnIsSumBefore_iff.mp h
  exact columnIsSumBefore_iff.mpr ⟨v, hv, by rw [applyMatrix_matMul, applyMatrix_matMul, heq]⟩

/-- Row `c` tells column `c` from the columns before it when it has a one there and zeros before. -/
theorem not_columnIsSumBefore_of_unit_row {X : BitMatrix n} {c : Fin n}
    (h : ∀ j ≤ c, entry X c j = decide (c = j)) : ¬ ColumnIsSumBefore X c := by
  rintro ⟨v, hv, heq⟩
  have hzero : parity (X[c] &&& v) = false := by
    have hbit : (fun j : Fin n => (X[c] &&& v).getLsbD j.val) = fun _ => false := by
      funext j
      rw [BitVec.getLsbD_and]
      cases hj : v.getLsbD j.val with
      | false => exact Bool.and_false _
      | true =>
        have hlt := hv j hj
        have : X[c].getLsbD j.val = false := (h j hlt.le).trans (by simp [hlt.ne'])
        rw [this, Bool.false_and]
    rw [parity, hbit, xorOver_false]
  have hc := heq c
  rw [hzero, h c le_rfl, decide_eq_true rfl] at hc
  cases hc

theorem singular_of_columnIsSumBefore {X : BitMatrix n} {c : Fin n} (h : ColumnIsSumBefore X c) : Singular X := by
  rintro ⟨Y, -, hYX⟩
  have hid : ColumnIsSumBefore (identityMatrix n) c := hYX ▸ h.matMul_left Y
  exact not_columnIsSumBefore_of_unit_row (fun j _ => entry_identityMatrix c j) hid

/-- Where the columns before `c` are those of the identity and rows `c` and after have a zero in column `c`, column `c`
is the sum of the columns that its own bits name. -/
theorem columnIsSumBefore_of_no_pivot {L : BitMatrix n} {c : Fin n}
    (hcols : ∀ j < c, ∀ i, entry L i j = decide (i = j)) (hc : ∀ r, c ≤ r → entry L r c = false) :
    ColumnIsSumBefore L c := by
  refine ⟨wordOfBits fun j => decide (j < c) && entry L j c, fun j hj => ?_, fun i => ?_⟩
  · rw [wordOfBits_getLsbD, Bool.and_eq_true] at hj
    exact of_decide_eq_true hj.1
  · rw [parity, xorOver_single _ i fun j hji => ?_]
    · rw [BitVec.getLsbD_and, wordOfBits_getLsbD]
      by_cases hic : i < c
      · have hii : L[i].getLsbD i.val = true := (hcols i hic i).trans (by simp)
        rw [hii, decide_eq_true hic, Bool.true_and, Bool.true_and]
      · simp [hic, hc i (not_lt.mp hic)]
    · rw [BitVec.getLsbD_and, wordOfBits_getLsbD]
      by_cases hjc : j < c
      · have hij : L[i].getLsbD j.val = false := (hcols j hjc i).trans (by simp [hji.symm])
        rw [hij, Bool.false_and]
      · simp [hjc]

/-- At the failing column the columns before it are done and no pivot row is left; `A` is invertible, so what holds of
the columns of `L = A * X` holds of those of `X` (R109). -/
theorem gf2Invert_singular_column {X : BitMatrix n} {c : Fin n} (h : gf2Invert X = .singular c) :
    ColumnIsSumBefore X c := by
  obtain ⟨done, cs, B, hsplit, hB, hnone⟩ := (eliminationInvariant_start X).columnSteps_error
    (List.pairwise_lt_finRange n) (gf2Invert_singular_iff.mp h)
  have hL := columnIsSumBefore_of_no_pivot (fun j hj => hB.columns j (mem_done_of_lt hsplit hj)) (pivotRow_none hnone)
  obtain ⟨Y, -, hYA⟩ := hB.invertible
  have hX : matMul Y B.L = X := by rw [← hB.product, ← matMul_assoc, hYA, identityMatrix_matMul]
  exact hX ▸ hL.matMul_left Y

/-- The elimination fails on the singular matrices and on no other (R109). -/
theorem singular_iff_exists_gf2Invert_singular {X : BitMatrix n} : Singular X ↔ ∃ c, gf2Invert X = .singular c := by
  constructor
  · intro hX
    cases h : gf2Invert X with
    | ok A => exact absurd ⟨A, isInverse_of_gf2Invert_ok h⟩ hX
    | singular c => exact ⟨c, rfl⟩
  · rintro ⟨c, h⟩
    exact singular_of_columnIsSumBefore (gf2Invert_singular_column h)

/-- With a zero in each row of column 0 the search fails there. -/
theorem gf2Invert_zeroMatrix : gf2Invert zeroMatrix = .singular 0 := by
  have hnone : pivotRow zeroMatrix (0 : Fin 32) = none :=
    List.find?_eq_none.mpr fun r _ => by rw [entry, zeroMatrix_row]; simp
  rw [gf2Invert_singular_iff, List.finRange_succ, columnSteps, startBuffers, hnone]

end Sys2Proof.Machine
end

section
/-! The words of the matrix commands: the words that run a command, and the words with its opcode that are illegal
(R72, R75, R77). -/

namespace Sys2Proof

/-- The masks of the opcode map keep the whole opcode. -/
theorem opField_mask_of_mem {row : OpcodeRow} (h : row ∈ opcodeMap) : opField row.mask = BitVec.allOnes 8 := by
  revert row
  decide

/-- No two rows of the opcode map have the same opcode. -/
theorem row_eq_of_opField_eq {row row' : OpcodeRow} (h : row ∈ opcodeMap) (h' : row' ∈ opcodeMap)
    (hop : opField row.pattern = opField row'.pattern) : row = row' := by
  have key : ∀ a ∈ opcodeMap, ∀ b ∈ opcodeMap, opField a.pattern = opField b.pattern → a = b := by decide
  exact key _ h _ h' hop

/-- The one row that a word can match is the row that has its opcode. -/
theorem legalWord_eq_false_of_not_match {row : OpcodeRow} (hrow : row ∈ opcodeMap) {cw : Word}
    (hop : opField cw = opField row.pattern) (hne : cw &&& row.mask ≠ row.pattern) : legalWord cw = false := by
  rw [← Bool.not_eq_true, legalWord, List.any_eq_true]
  rintro ⟨row', hrow', hmatch⟩
  rw [OpcodeRow.matches, beq_iff_eq] at hmatch
  have hop' := ((and_eq_iff_fields _ _ _).mp hmatch).1
  rw [opField_mask_of_mem hrow', BitVec.and_allOnes] at hop'
  obtain rfl := row_eq_of_opField_eq hrow hrow' (hop.symm.trans hop')
  exact hne hmatch

/-- A word of format R as R83 writes it: the opcode, and the row number shifted to `idx`. -/
theorem rowWord_eq_packWord (op : BitVec 8) (r : Row) :
    (op.setWidth 32 <<< 24) ||| (BitVec.ofNat 32 r.val <<< 8) = packWord op 0 (idxOfRow r) 0 := by
  apply BitVec.eq_of_getLsbD_eq
  intro i hi
  have hr : ∀ k, 5 ≤ k → r.val.testBit k = false := fun k hk =>
    Nat.testBit_lt_two_pow (r.isLt.trans_le (Nat.pow_le_pow_right (by decide : 0 < 2) hk))
  simp only [packWord, idxOfRow, BitVec.getLsbD_or, BitVec.getLsbD_shiftLeft, BitVec.getLsbD_setWidth,
    BitVec.getLsbD_append, BitVec.getLsbD_ofNat]
  grind

theorem decode_mwr_word (r : Row) (wd : Word) :
    decode (0x10000000#32 ||| (BitVec.ofNat 32 r.val <<< 8)) wd = .ok (.mwr r wd) := by
  rw [show 0x10000000#32 ||| _ = _ from rowWord_eq_packWord 0x10 r]
  simp [decode, decodeR]

theorem decode_mrd_word (r : Row) (wd : Word) :
    decode (0x11000000#32 ||| (BitVec.ofNat 32 r.val <<< 8)) wd = .ok (.mrd r) := by
  rw [show 0x11000000#32 ||| _ = _ from rowWord_eq_packWord 0x11 r]
  simp [decode, decodeR]

theorem decode_minv_word (wd : Word) : decode 0x12000000#32 wd = .ok .minv := by
  rw [show 0x12000000#32 = packWord 0x12 0 0 0 from rfl]
  simp [decode, decodeZ]

theorem decode_ird_word (r : Row) (wd : Word) :
    decode (0x13000000#32 ||| (BitVec.ofNat 32 r.val <<< 8)) wd = .ok (.ird r) := by
  rw [show 0x13000000#32 ||| _ = _ from rowWord_eq_packWord 0x13 r]
  simp [decode, decodeR]

end Sys2Proof

namespace Sys2Proof.Machine

/-- Every word that has the opcode of a row of the opcode map and does not match the row is illegal (R77). -/
theorem otherFormsIllegal_of_mem {row : OpcodeRow} (hrow : row ∈ opcodeMap) :
    OtherFormsIllegal (opField row.pattern) row.mask row.pattern := by
  intro s cw wd hop hne
  obtain ⟨e, he⟩ := (legalWord_eq_false_iff cw wd).mp (legalWord_eq_false_of_not_match hrow hop hne)
  exact step_present_error he

end Sys2Proof.Machine
end

section
/-! The matrix commands MWR, MRD, MINV and IRD (spec/40_matrix_inverter.md section 3). -/

namespace Sys2Proof.Machine

/-- Settles O21: MWR leaves the row written and the inverse invalid, so IRD finds `ISTAT = NONE`. -/
theorem mwrWritesOneRow : Obligations.MwrWritesOneRow := by
  unfold Obligations.MwrWritesOneRow
  refine ⟨fun s r wd => ?_, otherFormsIllegal_of_mem (row := ⟨"MWR", 0xFFFFE0FF#32, 0x10000000#32⟩) (by decide)⟩
  have hrows : ∀ r' : Row, (s.setRowM r wd).rowM r' = if r' = r then wd else s.rowM r' := fun r' => by
    simp only [State.setRowM_rowM, eq_comm]
  exact ⟨_, exec_mwr s r wd, step_present_ok (c := ⟨_, wd⟩) (decode_mwr_word r wd), hrows, rfl, rfl, rfl,
    fun _ => ⟨rfl, rfl, rfl⟩, rfl, rfl, exec_ird_none rfl⟩

/-- MINV does not write its input (R111, R112). -/
theorem exec_minv_keeps_M {s t : State} (h : exec .minv s = .next t) : t.M = s.M := by
  cases hM : gf2Invert s.M with
  | ok A => exact next_injective ((exec_minv_ok hM).symm.trans h) ▸ rfl
  | singular c => exact next_injective ((exec_minv_singular hM).symm.trans h) ▸ rfl

/-- Settles O22: MRD reads `M`, which MINV does not write. -/
theorem mrdReadsOneRow : Obligations.MrdReadsOneRow := by
  unfold Obligations.MrdReadsOneRow
  refine ⟨exec_mrd, fun s t r h => ?_, fun s r wd => step_present_ok (c := ⟨_, wd⟩) (decode_mrd_word r wd),
    otherFormsIllegal_of_mem (row := ⟨"MRD", 0xFFFFE0FF#32, 0x11000000#32⟩) (by decide)⟩
  rw [← exec_minv_keeps_M h]
  exact ⟨_, exec_mrd t r, rfl⟩

theorem zextCol_colField (c : Row) : zextCol (colField c) = BitVec.ofNat 32 c.val :=
  BitVec.setWidth_ofNat_of_le_of_lt (by decide) c.isLt

/-- The state after a MINV that succeeds is one in which MINV changes nothing. -/
theorem exec_minv_twice_ok {s : State} {A : BitMatrix 32} (h : gf2Invert s.M = .ok A) :
    exec .minv ((s.setINV A).markValid.withResponse .OK 0) = .next ((s.setINV A).markValid.withResponse .OK 0) :=
  exec_minv_ok (s := (s.setINV A).markValid.withResponse .OK 0) h

/-- The state after a MINV that fails is one in which MINV changes nothing. -/
theorem exec_minv_twice_singular {s : State} {c : Row} (h : gf2Invert s.M = .singular c) :
    exec .minv ((s.markSingular c).withResponse .ERR_SINGULAR (zextCol (colField c))) =
      .next ((s.markSingular c).withResponse .ERR_SINGULAR (zextCol (colField c))) :=
  exec_minv_singular (s := (s.markSingular c).withResponse .ERR_SINGULAR (zextCol (colField c))) h

theorem answers_minv_singular {s : State} {c : Row} (h : gf2Invert s.M = .singular c) :
    Answers .minv s .ERR_SINGULAR (zextCol (colField c)) := ⟨_, exec_minv_singular h, rfl⟩

/-- ERR_SINGULAR is answered when the elimination fails, and only then (R112). -/
theorem answers_minv_singular_iff {s : State} :
    (∃ d, Answers .minv s .ERR_SINGULAR d) ↔ ∃ c, gf2Invert s.M = .singular c := by
  refine ⟨fun ⟨d, t, ht, hr⟩ => ?_, fun ⟨c, h⟩ => ⟨_, answers_minv_singular h⟩⟩
  cases h : gf2Invert s.M with
  | singular c => exact ⟨c, rfl⟩
  | ok A =>
    rw [← next_injective ((exec_minv_ok h).symm.trans ht), State.withResponse_rsp] at hr
    cases hr

/-- Settles O23: MINV writes what the elimination returns, and the elimination fails exactly on the singular
matrices. -/
theorem minvInverts : Obligations.MinvInverts := by
  unfold Obligations.MinvInverts
  refine ⟨fun s A h => ?_, fun s c h => ?_,
    fun s => singular_iff_exists_gf2Invert_singular.trans answers_minv_singular_iff.symm,
    answers_minv_singular (s := State.reset) (c := 0) gf2Invert_zeroMatrix,
    fun s wd => step_present_ok (c := ⟨0x12000000, wd⟩) (decode_minv_word wd),
    otherFormsIllegal_of_mem (row := ⟨"MINV", 0xFFFFFFFF#32, 0x12000000#32⟩) (by decide)⟩
  · exact ⟨_, exec_minv_ok h, rfl, rfl, rfl, rfl, fun _ => ⟨rfl, rfl, rfl⟩, rfl, rfl, exec_minv_twice_ok h⟩
  · rw [← zextCol_colField]
    exact ⟨_, exec_minv_singular h, rfl, rfl, rfl, rfl, fun _ => ⟨rfl, rfl, rfl⟩, rfl, rfl,
      exec_minv_twice_singular h⟩

/-- Settles O24: IRD by the three values of `ISTAT`; while VALID, `INV` is what the elimination of `M` returns. -/
theorem irdReadsTheInverse : Obligations.IrdReadsTheInverse := by
  unfold Obligations.IrdReadsTheInverse
  exact ⟨fun s r h => exec_ird_valid h r, fun s r h => exec_ird_none h r, fun s r h => exec_ird_singular h r,
    fun s hinv h => isInverse_of_gf2Invert_ok (hinv.valid h),
    fun s r wd => step_present_ok (c := ⟨_, wd⟩) (decode_ird_word r wd),
    otherFormsIllegal_of_mem (row := ⟨"IRD", 0xFFFFE0FF#32, 0x13000000#32⟩) (by decide)⟩

end Sys2Proof.Machine
end

section
/-! The words of the table commands: the words that run a command (R72, R75, R83). -/

namespace Sys2Proof

/-- Two bytes put below a half word, as R83 and R134 write it with shifts. -/
theorem append_bytes_eq_or (h : BitVec 16) (x y : Byte) :
    h ++ x ++ y = (h.setWidth 32 <<< 16) ||| (x.setWidth 32 <<< 8) ||| y.setWidth 32 := by
  apply BitVec.eq_of_getLsbD_eq
  intro i hi
  simp only [BitVec.getLsbD_or, BitVec.getLsbD_shiftLeft, BitVec.getLsbD_setWidth, BitVec.getLsbD_append]
  grind

/-- The upper half of a table command's word as R83 writes it: the opcode, and the bank's bit shifted to `b`. -/
theorem bankHalf_eq_or (op : BitVec 8) (b : BitVec 1) :
    (op ++ 0#7 ++ b).setWidth 32 <<< 16 = (op.setWidth 32 <<< 24) ||| (b.setWidth 32 <<< 16) := by
  apply BitVec.eq_of_getLsbD_eq
  intro i hi
  simp only [BitVec.getLsbD_or, BitVec.getLsbD_shiftLeft, BitVec.getLsbD_setWidth, BitVec.getLsbD_append]
  grind

/-- A word of format XI as R83 writes it: the opcode, the bank's bit, the index and the immediate byte, each shifted to
its field. -/
theorem tableWord_eq_packWord (op : BitVec 8) (b : BitVec 1) (x v : Byte) :
    (op.setWidth 32 <<< 24) ||| (b.setWidth 32 <<< 16) ||| (x.setWidth 32 <<< 8) ||| v.setWidth 32 =
      packWord op b x v := by
  rw [← bankHalf_eq_or, ← append_bytes_eq_or, packWord]

/-- A word of format X has no immediate byte. -/
theorem indexWord_eq_packWord (op : BitVec 8) (b : BitVec 1) (x : Byte) :
    (op.setWidth 32 <<< 24) ||| (b.setWidth 32 <<< 16) ||| (x.setWidth 32 <<< 8) = packWord op b x 0 :=
  BitVec.or_zero.symm.trans (tableWord_eq_packWord op b x 0)

/-- A word of format B has no index either. -/
theorem bankWord_eq_packWord (op : BitVec 8) (b : BitVec 1) :
    (op.setWidth 32 <<< 24) ||| (b.setWidth 32 <<< 16) = packWord op b 0 0 :=
  BitVec.or_zero.symm.trans (indexWord_eq_packWord op b 0)

theorem decode_twr_word (b : Bank) (x v : Byte) (wd : Word) :
    decode (0x20000000#32 ||| ((bitOfBank b).setWidth 32 <<< 16) ||| (x.setWidth 32 <<< 8) ||| v.setWidth 32) wd =
      .ok (.twr b x v) := by
  rw [show 0x20000000#32 ||| _ ||| _ ||| _ = _ from tableWord_eq_packWord 0x20 (bitOfBank b) x v]
  simp [decode, decodeXI]

theorem decode_trd_word (b : Bank) (x : Byte) (wd : Word) :
    decode (0x21000000#32 ||| ((bitOfBank b).setWidth 32 <<< 16) ||| (x.setWidth 32 <<< 8)) wd = .ok (.trd b x) := by
  rw [show 0x21000000#32 ||| _ ||| _ = _ from indexWord_eq_packWord 0x21 (bitOfBank b) x]
  simp [decode, decodeX]

theorem decode_tbld_word (b : Bank) (wd : Word) :
    decode (0x22000000#32 ||| ((bitOfBank b).setWidth 32 <<< 16)) wd = .ok (.tbld b) := by
  rw [show 0x22000000#32 ||| _ = _ from bankWord_eq_packWord 0x22 (bitOfBank b)]
  simp [decode, decodeB]

theorem decode_cls_word (b : Bank) (y : Byte) (wd : Word) :
    decode (0x23000000#32 ||| ((bitOfBank b).setWidth 32 <<< 16) ||| (y.setWidth 32 <<< 8)) wd = .ok (.cls b y) := by
  rw [show 0x23000000#32 ||| _ ||| _ = _ from indexWord_eq_packWord 0x23 (bitOfBank b) y]
  simp [decode, decodeX]

theorem decode_prd_word (b : Bank) (y k : Byte) (wd : Word) :
    decode (0x24000000#32 ||| ((bitOfBank b).setWidth 32 <<< 16) ||| (y.setWidth 32 <<< 8) ||| k.setWidth 32) wd =
      .ok (.prd b y k) := by
  rw [show 0x24000000#32 ||| _ ||| _ ||| _ = _ from tableWord_eq_packWord 0x24 (bitOfBank b) y k]
  simp [decode, decodeXI]

end Sys2Proof
end

section
/-! The class of a byte (R133) and the annotation word (R134), field by field. -/

namespace Sys2Proof.Machine

/-! The class of a list. -/

theorem classOfList_eq_deadEnd_iff {l : List Byte} : classOfList l = .DeadEnd ↔ l.length = 0 := by
  rcases l with _ | ⟨a, _ | ⟨a', l⟩⟩ <;> simp [classOfList]

theorem classOfList_eq_forced_iff {l : List Byte} {x : Byte} :
    classOfList l = .Forced x ↔ l.length = 1 ∧ l[0]? = some x := by
  rcases l with _ | ⟨a, _ | ⟨a', l⟩⟩ <;> simp [classOfList]

theorem classOfList_eq_branching_iff {l l' : List Byte} :
    classOfList l = .Branching l' ↔ 2 ≤ l.length ∧ l' = l := by
  rcases l with _ | ⟨a, _ | ⟨a', l⟩⟩ <;> simp [classOfList, eq_comm]

/-- Settles O37: by the length of the list. -/
theorem classByLength : Obligations.ClassByLength := by
  unfold Obligations.ClassByLength
  exact fun pre y => ⟨classOfList_eq_deadEnd_iff, fun _ => classOfList_eq_forced_iff,
    fun _ => classOfList_eq_branching_iff⟩

/-- The class code says 0, 1, or 2 and more. -/
theorem classCode_eq (l : List Byte) :
    classCode l = if l.length = 0 then 0#2 else if l.length = 1 then 1#2 else 2#2 := by
  rcases l with _ | ⟨a, _ | ⟨a', l⟩⟩ <;> simp [classCode]

/-! The fields of the annotation word. -/

@[simp] theorem annot_classField (l : List Byte) : (annot l).extractLsb' 30 2 = classCode l := by
  simp (disch := decide) only [annot, BitVec.extractLsb'_append_eq_of_le, Nat.reduceSub,
    BitVec.extractLsb'_eq_self]

@[simp] theorem annot_zeroField (l : List Byte) : (annot l).extractLsb' 25 5 = 0#5 := by
  simp (disch := decide) only [annot, BitVec.extractLsb'_append_eq_of_le, Nat.reduceSub,
    BitVec.extractLsb'_append_eq_right]

@[simp] theorem annot_countField (l : List Byte) : (annot l).extractLsb' 16 9 = BitVec.ofNat 9 l.length := by
  simp (disch := decide) only [annot, BitVec.extractLsb'_append_eq_of_le, Nat.reduceSub,
    BitVec.extractLsb'_append_eq_right]

@[simp] theorem annot_secondField (l : List Byte) : (annot l).extractLsb' 8 8 = l.getD 1 0 := by
  simp (disch := decide) only [annot, BitVec.extractLsb'_append_eq_of_le, Nat.reduceSub,
    BitVec.extractLsb'_append_eq_right]

@[simp] theorem annot_firstField (l : List Byte) : (annot l).extractLsb' 0 8 = l.getD 0 0 :=
  BitVec.extractLsb'_append_eq_right

/-- The count field has room for a list of 256. -/
theorem toNat_annot_countField {l : List Byte} (h : l.length ≤ 256) :
    ((annot l).extractLsb' 16 9).toNat = l.length := by
  rw [annot_countField, BitVec.toNat_ofNat, Nat.mod_eq_of_lt (by omega)]

/-- The annotation word of a list encodes the list's class (R133, R141). -/
theorem annot_encodes_classOfList {l : List Byte} (h : l.length ≤ 256) :
    ((annot l).extractLsb' 30 2 = 0 ↔ classOfList l = .DeadEnd) ∧
      (∀ x, classOfList l = .Forced x ↔ (annot l).extractLsb' 30 2 = 1 ∧ (annot l).extractLsb' 0 8 = x) ∧
      ((annot l).extractLsb' 30 2 = 2 ↔ ∃ l', classOfList l = .Branching l') ∧
      ∀ l', classOfList l = .Branching l' → ((annot l).extractLsb' 16 9).toNat = l'.length ∧
        l'[0]? = some ((annot l).extractLsb' 0 8) ∧ l'[1]? = some ((annot l).extractLsb' 8 8) := by
  rw [toNat_annot_countField h, annot_classField, annot_firstField, annot_secondField]
  rcases l with _ | ⟨a, _ | ⟨a', l⟩⟩ <;> simp [classOfList, classCode]

theorem annot_singleton (x : Byte) : annot [x] = 0x40010000#32 ||| x.setWidth 32 :=
  calc annot [x]
    _ = 1#2 ++ 0#5 ++ 1#9 ++ 0#8 ++ x := rfl
    _ = 0x40010000#32 ||| x.setWidth 32 := append_bytes_eq_or _ _ _

theorem annot_pair (x0 x1 : Byte) :
    annot [x0, x1] = 0x80020000#32 ||| (x1.setWidth 32 <<< 8) ||| x0.setWidth 32 :=
  calc annot [x0, x1]
    _ = 2#2 ++ 0#5 ++ 2#9 ++ x1 ++ x0 := rfl
    _ = 0x80020000#32 ||| (x1.setWidth 32 <<< 8) ||| x0.setWidth 32 := append_bytes_eq_or _ _ _

/-- Settles O38: field by field; the printed forms are the word put together from its parts. -/
theorem annotationFields : Obligations.AnnotationFields := by
  unfold Obligations.AnnotationFields
  exact ⟨fun l h => ⟨(annot_classField l).trans (classCode_eq l), annot_zeroField l, toNat_annot_countField h,
    annot_secondField l, annot_firstField l⟩, rfl, annot_singleton, annot_pair⟩

end Sys2Proof.Machine
end

section
/-! The table commands TWR, TRD, TBLD, CLS and PRD (spec/41_sbox_classifier.md section 2). -/

namespace Sys2Proof.Machine

/-- Settles O31: TWR leaves the entry written and the bank not built, which is what CLS and PRD look at. -/
theorem twrWritesOneEntry : Obligations.TwrWritesOneEntry := by
  unfold Obligations.TwrWritesOneEntry
  refine ⟨fun s b x v => ?_, otherFormsIllegal_of_mem (row := ⟨"TWR", 0xFFFE0000#32, 0x20000000#32⟩) (by decide)⟩
  have hentries : ∀ x', (s.setEntryT b x v).entryT b x' = if x' = x then v else s.entryT b x' := fun x' => by
    simp only [State.setEntryT_entryT_same, eq_comm]
  have hbuilt : (s.TBUILT.set b false).get b = false := PerBank.get_set_same _ _ _
  exact ⟨_, exec_twr s b x v, fun wd => step_present_ok (c := ⟨_, wd⟩) (decode_twr_word b x v wd), hentries, hbuilt, rfl,
    fun b' hb => ⟨PerBank.get_set_other _ hb _, rfl, PerBank.get_set_other _ hb _⟩, ⟨rfl, rfl, rfl, rfl⟩, rfl, rfl,
    exec_cls_notBuilt hbuilt, exec_prd_notBuilt hbuilt⟩

/-- Settles O32: TRD answers from the table and writes the response only. -/
theorem trdReadsOneEntry : Obligations.TrdReadsOneEntry := by
  unfold Obligations.TrdReadsOneEntry
  exact ⟨exec_trd, fun s b x wd => step_present_ok (c := ⟨_, wd⟩) (decode_trd_word b x wd),
    otherFormsIllegal_of_mem (row := ⟨"TRD", 0xFFFE00FF#32, 0x21000000#32⟩) (by decide)⟩

/-- The state that TBLD leaves (R139). -/
def State.bankBuilt (s : State) (b : Bank) : State :=
  ((s.setIR b (buildInverse (s.T.get b))).setBuilt b true).withResponse .OK 0

theorem exec_tbld_bankBuilt (s : State) (b : Bank) : exec (.tbld b) s = .next (s.bankBuilt b) := exec_tbld s b

/-- TBLD changes nothing in the state that TBLD leaves. -/
theorem bankBuilt_bankBuilt (s : State) (b : Bank) : (s.bankBuilt b).bankBuilt b = s.bankBuilt b := by
  simp [State.bankBuilt, State.setIR, State.setBuilt, State.withResponse]

/-- Settles O33: TBLD writes `build_inverse` of the present table, whose lists are the filters of all bytes. -/
theorem tbldBuildsTheRelation : Obligations.TbldBuildsTheRelation := by
  unfold Obligations.TbldBuildsTheRelation
  refine ⟨fun s b => ?_, fun s b wd => step_present_ok (c := ⟨_, wd⟩) (decode_tbld_word b wd),
    otherFormsIllegal_of_mem (row := ⟨"TBLD", 0xFFFEFFFF#32, 0x22000000#32⟩) (by decide)⟩
  have hIR : (s.bankBuilt b).IR.get b = buildInverse (s.T.get b) := PerBank.get_set_same _ _ _
  have hlists : ∀ y, (s.bankBuilt b).listIR b y = allBytes.filter fun x => s.entryT b x == y := fun y => by
    rw [State.listIR, hIR, listAt_buildInverse]
    rfl
  have htwice : exec (.tbld b) (s.bankBuilt b) = .next (s.bankBuilt b) := by
    rw [exec_tbld_bankBuilt, bankBuilt_bankBuilt]
  exact ⟨_, exec_tbld_bankBuilt s b, hIR, hlists, PerBank.get_set_same _ _ _, rfl,
    fun b' hb => ⟨rfl, PerBank.get_set_other _ hb _, PerBank.get_set_other _ hb _⟩, ⟨rfl, rfl, rfl, rfl⟩, rfl, rfl,
    htwice⟩

/-- CLS answers OK only while the bank is built, and then with the annotation word of the list (R141). -/
theorem answers_cls_ok_iff {s : State} {b : Bank} {y : Byte} {d : Word} :
    Answers (.cls b y) s .OK d ↔ s.TBUILT.get b = true ∧ d = annot (s.listIR b y) := by
  constructor
  · rintro ⟨t, ht, hr⟩
    cases hb : s.TBUILT.get b with
    | true =>
      rw [← next_injective ((exec_cls_built hb y).symm.trans ht), State.withResponse_rsp] at hr
      cases hr
      exact ⟨rfl, rfl⟩
    | false =>
      rw [← next_injective ((exec_cls_notBuilt hb y).symm.trans ht), State.withResponse_rsp] at hr
      cases hr
  · rintro ⟨hb, rfl⟩
    exact ⟨_, exec_cls_built hb y, rfl⟩

/-- Under the invariants a built list is the bytes that the present table maps to `y`, in increasing order. -/
theorem Inv.listIR_eq {s : State} (h : Inv s) {b : Bank} (hb : s.TBUILT.get b = true) (y : Byte) :
    s.listIR b y = allBytes.filter fun x => s.entryT b x == y := by
  rw [State.listIR, h.built b hb, listAt_buildInverse]
  rfl

/-- A filter of the bytes keeps 256 of them when it keeps all. -/
theorem length_filter_allBytes_eq_iff {p : Byte → Bool} : (allBytes.filter p).length = 256 ↔ ∀ x, p x = true := by
  rw [← allBytes_length, List.length_filter_eq_length_iff]
  exact ⟨fun h x => h x (mem_allBytes x), fun h x _ => h x⟩

/-- Settles O34: CLS by `TBUILT[b]`; an OK answer is the annotation word of the list, which encodes the class; under the
invariants the list is a filter of all bytes. -/
theorem clsAnswersTheAnnotation : Obligations.ClsAnswersTheAnnotation := by
  unfold Obligations.ClsAnswersTheAnnotation
  refine ⟨fun s b y h => exec_cls_built h y, fun s b y d hlen h => ?_, fun s b y d hinv h => ?_,
    fun s b y h => exec_cls_notBuilt h y, fun s b y wd => step_present_ok (c := ⟨_, wd⟩) (decode_cls_word b y wd),
    otherFormsIllegal_of_mem (row := ⟨"CLS", 0xFFFE00FF#32, 0x23000000#32⟩) (by decide)⟩
  · obtain ⟨_, rfl⟩ := answers_cls_ok_iff.mp h
    exact annot_encodes_classOfList hlen
  · obtain ⟨hb, rfl⟩ := answers_cls_ok_iff.mp h
    have hlist := hinv.listIR_eq hb y
    have hlen : (s.listIR b y).length ≤ 256 := hlist ▸ (List.length_filter_le _ _).trans allBytes_length.le
    rw [toNat_annot_countField hlen, hlist, length_filter_allBytes_eq_iff]
    simp only [beq_iff_eq]

/-- PRD answers the element that a list has at position `k` (R142). -/
theorem answers_prd_getD {s : State} {b : Bank} (hb : s.TBUILT.get b = true) {y k : Byte}
    (hk : k.toNat < (s.listIR b y).length) :
    Answers (.prd b y k) s .OK (((s.listIR b y).getD k.toNat 0).setWidth 32) :=
  ⟨_, exec_prd_built hb hk, by rw [List.getD_eq_getElem _ _ hk]; rfl⟩

/-- Settles O35: PRD by `TBUILT[b]` and by the position; CLS answers OK only while PRD finds the bank built, and its
two preimage fields are the elements at positions 0 and 1. -/
theorem prdReadsOnePreimage : Obligations.PrdReadsOnePreimage := by
  unfold Obligations.PrdReadsOnePreimage
  refine ⟨fun s b y k hk hb => exec_prd_built hb hk, fun s b y k hb hk => exec_prd_range hb hk,
    fun s b y k hb => exec_prd_notBuilt hb y k, fun s b y d h => ?_,
    fun s b y k wd => step_present_ok (c := ⟨_, wd⟩) (decode_prd_word b y k wd),
    otherFormsIllegal_of_mem (row := ⟨"PRD", 0xFFFE0000#32, 0x24000000#32⟩) (by decide)⟩
  obtain ⟨hb, rfl⟩ := answers_cls_ok_iff.mp h
  rw [annot_firstField, annot_secondField]
  exact ⟨answers_prd_getD (k := 0) hb, answers_prd_getD (k := 1) hb⟩

end Sys2Proof.Machine
end

section
/-! The control commands NOP, STAT and RST (spec/42_status_control.md): their words, and what they answer. -/

namespace Sys2Proof

theorem decode_stat_word (wd : Word) : decode 0x01000000#32 wd = .ok .stat := by
  rw [show 0x01000000#32 = packWord 0x01 0 0 0 from rfl]
  simp [decode, decodeZ]

theorem decode_rst_word (wd : Word) : decode 0x02000000#32 wd = .ok .rst := by
  rw [show 0x02000000#32 = packWord 0x02 0 0 0 from rfl]
  simp [decode, decodeZ]

/-- The all-zero word is the word with every field zero (R72). -/
theorem word_eq_zero_iff_fields {cw : Word} :
    cw = 0 ↔ zField cw = 0 ∧ opField cw = 0 ∧ bField cw = 0 ∧ idxField cw = 0 ∧ immField cw = 0 := by
  constructor
  · rintro rfl
    decide
  · rintro ⟨hz, hop, hb, hidx, himm⟩
    exact word_eq_of_fields hop hz hb hidx himm

/-- NOP comes from one branch of the decoder, format Z with opcode 0, which leaves no field free. -/
theorem decode_eq_nop_iff (cw wd : Word) : decode cw wd = .ok .nop ↔ cw = 0 := by
  rw [decode_ok_iff, word_eq_zero_iff_fields]
  simp [decodeZ_ok, decodeR_ok, decodeB_ok, decodeX_ok, decodeXI_ok]

theorem eq_nop_row_of_mnemonic {row : OpcodeRow} (h : row ∈ opcodeMap) (hnop : row.mnemonic = "NOP") :
    row = ⟨"NOP", 0xFFFFFFFF#32, 0x00000000#32⟩ := by
  revert row
  decide

/-- The row of NOP matches the all-zero word only, so a nonzero word is legal through another row or not at all
(R160). -/
theorem legalWord_eq_false_of_no_other_row {cw : Word} (h0 : cw ≠ 0)
    (hother : ∀ row ∈ opcodeMap, row.mnemonic ≠ "NOP" → cw &&& row.mask ≠ row.pattern) : legalWord cw = false := by
  rw [← Bool.not_eq_true, legalWord, List.any_eq_true]
  rintro ⟨row, hrow, hmatch⟩
  rw [OpcodeRow.matches, beq_iff_eq] at hmatch
  by_cases hnop : row.mnemonic = "NOP"
  · obtain rfl := eq_nop_row_of_mnemonic hrow hnop
    exact h0 (BitVec.and_allOnes.symm.trans hmatch)
  · exact hother row hrow hnop hmatch

end Sys2Proof

namespace Sys2Proof.Machine

/-- The STATUS word (R30) as R161 writes it, its fields shifted to their places. -/
theorem statusWord_eq_or (s : State) :
    s.statusWord = s.ISTAT.code.setWidth 32 ||| ((BitVec.ofBool (s.TBUILT.get .even)).setWidth 32 <<< 2) |||
      ((BitVec.ofBool (s.TBUILT.get .odd)).setWidth 32 <<< 3) ||| (s.FCOL.setWidth 32 <<< 8) := by
  apply BitVec.eq_of_getLsbD_eq
  intro i hi
  simp only [State.statusWord, PerBank.get, BitVec.getLsbD_or, BitVec.getLsbD_shiftLeft, BitVec.getLsbD_setWidth,
    BitVec.getLsbD_append]
  grind

/-- Settles O18: STAT answers `s.statusWord`, and clause (d) of the invariants is the one about `FCOL`. -/
theorem statReadsStatus : Obligations.StatReadsStatus := by
  unfold Obligations.StatReadsStatus
  refine ⟨fun s => ?_, fun s hinv => hinv.fcol, fun s wd => step_present_ok (decode_stat_word wd),
    otherFormsIllegal_of_mem (row := ⟨"STAT", 0xFFFFFFFF#32, 0x01000000#32⟩) (by decide)⟩
  rw [exec_stat, statusWord_eq_or, withResponse_eq]

/-- Settles O20: RST and a hardware reset both leave `s.resetBlock`, up to the port. -/
theorem rstIsAHardwareReset : Obligations.RstIsAHardwareReset := by
  unfold Obligations.RstIsAHardwareReset
  refine ⟨fun s => ?_, fun s wd => step_present_ok (decode_rst_word wd),
    otherFormsIllegal_of_mem (row := ⟨"RST", 0xFFFFFFFF#32, 0x02000000#32⟩) (by decide)⟩
  have hreset : step { s with host := [.reset none] } = .next { (s.accept []).resetBlock with rsp := none } := rfl
  exact ⟨_, _, exec_rst s, rfl, rfl, hreset, ⟨⟨rfl, rfl, rfl, rfl⟩, fun _ => ⟨rfl, rfl, rfl⟩⟩,
    (isResetBlock_resetBlock s).withResponse .OK 0⟩

/-- Settles O17: only 0 decodes to NOP, and a nonzero word that matches no other row matches no row. -/
theorem nopDoesNothing : Obligations.NopDoesNothing := by
  unfold Obligations.NopDoesNothing
  refine ⟨exec_nop, fun s wd => step_present_ok ((decode_eq_nop_iff 0 wd).mpr rfl), decode_eq_nop_iff,
    fun s cw wd h0 hother => ?_⟩
  obtain ⟨e, he⟩ := (legalWord_eq_false_iff cw wd).mp (legalWord_eq_false_of_no_other_row h0 hother)
  exact step_present_error he

end Sys2Proof.Machine
end

section
/-! The error responses (spec/60_exceptions.md rules R171, R172, R177): the table of their causes, and the state after
each. -/

namespace Sys2Proof.Machine

/-- The table of R172 for the commands: command `i` in the state `s` has the error code and the information word.
ERR_ILLEGAL is of words that are no command. -/
inductive ErrorCause (s : State) : Instr → RCode → Word → Prop where
  | minv {c : Fin 32} (h : gf2Invert s.M = .singular c) : ErrorCause s .minv .ERR_SINGULAR (BitVec.ofNat 32 c.val)
  | irdSingular (r : Row) (h : s.ISTAT = .SINGULAR) : ErrorCause s (.ird r) .ERR_SINGULAR (s.FCOL.setWidth 32)
  | irdNone (r : Row) (h : s.ISTAT = .NONE) : ErrorCause s (.ird r) .ERR_NOTREADY 0
  | clsNotBuilt {b : Bank} (y : Byte) (h : s.TBUILT.get b = false) : ErrorCause s (.cls b y) .ERR_NOTREADY 0
  | prdNotBuilt {b : Bank} (y k : Byte) (h : s.TBUILT.get b = false) : ErrorCause s (.prd b y k) .ERR_NOTREADY 0
  | prdRange {b : Bank} {y k : Byte} (h : s.TBUILT.get b = true) (hk : (s.listIR b y).length ≤ k.toNat) :
      ErrorCause s (.prd b y k) .ERR_RANGE (BitVec.ofNat 32 (s.listIR b y).length)

/-- The state that an error leaves (R171): only MINV writes, `ISTAT` and `FCOL`. -/
def State.afterError (s : State) (i : Instr) (code : RCode) (d : Word) : State :=
  if i = .minv then { s with ISTAT := .SINGULAR, FCOL := d.setWidth 5, rsp := some ⟨code, d⟩ }
  else { s with rsp := some ⟨code, d⟩ }

theorem State.afterError_minv (s : State) (code : RCode) (d : Word) : s.afterError .minv code d =
    { s with ISTAT := .SINGULAR, FCOL := d.setWidth 5, rsp := some ⟨code, d⟩ } := if_pos rfl

theorem State.afterError_of_ne_minv (s : State) {i : Instr} (h : i ≠ .minv) (code : RCode) (d : Word) :
    s.afterError i code d = s.withResponse code d := if_neg h

@[simp] theorem State.afterError_rsp (s : State) (i : Instr) (code : RCode) (d : Word) :
    (s.afterError i code d).rsp = some ⟨code, d⟩ := by
  unfold State.afterError
  split <;> rfl

/-- The column is the same number in `rdata` and in `FCOL` (R112). -/
theorem markSingular_withResponse_eq_afterError (s : State) (c : Row) :
    (s.markSingular c).withResponse .ERR_SINGULAR (zextCol (colField c)) =
      s.afterError .minv .ERR_SINGULAR (BitVec.ofNat 32 c.val) := by
  have hcol : (BitVec.ofNat 32 c.val).setWidth 5 = colField c := BitVec.setWidth_ofNat_of_le (by decide) _
  rw [State.afterError_minv, zextCol_colField, hcol]
  rfl

/-- Each row of the table is an error that is answered. -/
theorem ErrorCause.exec_eq {s : State} {i : Instr} {code : RCode} {d : Word} (h : ErrorCause s i code d) :
    exec i s = .next (s.afterError i code d) := by
  cases h with
  | minv h => rw [exec_minv_singular h, markSingular_withResponse_eq_afterError]
  | irdSingular r h => exact exec_ird_singular h r
  | irdNone r h => exact exec_ird_none h r
  | clsNotBuilt y h => exact exec_cls_notBuilt h y
  | prdNotBuilt y k h => exact exec_prd_notBuilt h y k
  | prdRange h hk => exact exec_prd_range h hk

/-- A command answers OK unless the table has a cause of an error. -/
theorem answers_ok_or_errorCause (i : Instr) (s : State) :
    (∃ d, Answers i s .OK d) ∨ ∃ code d, ErrorCause s i code d := by
  cases i with
  | nop => exact .inl ⟨_, _, exec_nop s, rfl⟩
  | stat => exact .inl ⟨_, _, exec_stat s, rfl⟩
  | rst => exact .inl ⟨_, _, exec_rst s, rfl⟩
  | mwr r wd => exact .inl ⟨_, _, exec_mwr s r wd, rfl⟩
  | mrd r => exact .inl ⟨_, _, exec_mrd s r, rfl⟩
  | minv =>
    cases h : gf2Invert s.M with
    | ok A => exact .inl ⟨_, _, exec_minv_ok h, rfl⟩
    | singular c => exact .inr ⟨_, _, .minv h⟩
  | ird r =>
    cases h : s.ISTAT with
    | NONE => exact .inr ⟨_, _, .irdNone r h⟩
    | VALID => exact .inl ⟨_, _, exec_ird_valid h r, rfl⟩
    | SINGULAR => exact .inr ⟨_, _, .irdSingular r h⟩
  | twr b x v => exact .inl ⟨_, _, exec_twr s b x v, rfl⟩
  | trd b x => exact .inl ⟨_, _, exec_trd s b x, rfl⟩
  | tbld b => exact .inl ⟨_, _, exec_tbld s b, rfl⟩
  | cls b y =>
    cases h : s.TBUILT.get b with
    | true => exact .inl ⟨_, _, exec_cls_built h y, rfl⟩
    | false => exact .inr ⟨_, _, .clsNotBuilt y h⟩
  | prd b y k =>
    cases h : s.TBUILT.get b with
    | true =>
      rcases Nat.lt_or_ge k.toNat (s.listIR b y).length with hk | hk
      · exact .inl ⟨_, _, exec_prd_built h hk, rfl⟩
      · exact .inr ⟨_, _, .prdRange h hk⟩
    | false => exact .inr ⟨_, _, .prdNotBuilt y k h⟩

/-- A command has one answer in a state. -/
theorem Answers.unique {i : Instr} {s : State} {code code' : RCode} {d d' : Word} (h : Answers i s code d)
    (h' : Answers i s code' d') : code = code' ∧ d = d' := by
  obtain ⟨t, ht, hr⟩ := h
  obtain ⟨t', ht', hr'⟩ := h'
  obtain rfl := next_injective (ht.symm.trans ht')
  cases hr.symm.trans hr'
  exact ⟨rfl, rfl⟩

/-- The table is complete: an error is answered exactly for a cause that it lists. -/
theorem answers_error_iff {i : Instr} {s : State} {code : RCode} {d : Word} (hne : code ≠ .OK) :
    Answers i s code d ↔ ErrorCause s i code d := by
  refine ⟨fun h => ?_, fun h => ⟨_, h.exec_eq, State.afterError_rsp ..⟩⟩
  obtain ⟨d', hok⟩ | ⟨code', d', hcause⟩ := answers_ok_or_errorCause i s
  · exact absurd (h.unique hok).1 hne
  · obtain ⟨rfl, rfl⟩ := h.unique ⟨_, hcause.exec_eq, State.afterError_rsp ..⟩
    exact hcause

/-- An error has a cause and leaves the state of R171. -/
theorem errorCause_of_exec {i : Instr} {s t : State} {code : RCode} {d : Word} (ht : exec i s = .next t)
    (hr : t.rsp = some ⟨code, d⟩) (hne : code ≠ .OK) : ErrorCause s i code d ∧ t = s.afterError i code d := by
  have hcause := (answers_error_iff hne).mp ⟨t, ht, hr⟩
  exact ⟨hcause, next_injective (ht.symm.trans hcause.exec_eq)⟩

/-- No command raises ERR_ILLEGAL: the word is checked before there is a command (R174). -/
theorem not_answers_illegal (i : Instr) (s : State) (d : Word) : ¬ Answers i s .ERR_ILLEGAL d := by
  rw [answers_error_iff (by decide)]
  nofun

theorem answers_singular_iff (i : Instr) (s : State) (d : Word) : Answers i s .ERR_SINGULAR d ↔
    (i = .minv ∧ ∃ c : Fin 32, gf2Invert s.M = .singular c ∧ d = BitVec.ofNat 32 c.val) ∨
      ((∃ r, i = .ird r) ∧ s.ISTAT = .SINGULAR ∧ d = s.FCOL.setWidth 32) := by
  rw [answers_error_iff (by decide)]
  constructor
  · rintro (h | ⟨r, h⟩)
    · exact .inl ⟨rfl, _, h, rfl⟩
    · exact .inr ⟨⟨r, rfl⟩, h, rfl⟩
  · rintro (⟨rfl, c, h, rfl⟩ | ⟨⟨r, rfl⟩, h, rfl⟩)
    · exact .minv h
    · exact .irdSingular r h

theorem answers_notReady_iff (i : Instr) (s : State) (d : Word) : Answers i s .ERR_NOTREADY d ↔
    d = 0 ∧ (((∃ r, i = .ird r) ∧ s.ISTAT = .NONE) ∨
      ∃ b, ((∃ y, i = .cls b y) ∨ ∃ y k, i = .prd b y k) ∧ s.TBUILT.get b = false) := by
  rw [answers_error_iff (by decide)]
  constructor
  · rintro (_ | _ | ⟨r, h⟩ | ⟨y, h⟩ | ⟨y, k, h⟩)
    · exact ⟨rfl, .inl ⟨⟨r, rfl⟩, h⟩⟩
    · exact ⟨rfl, .inr ⟨_, .inl ⟨y, rfl⟩, h⟩⟩
    · exact ⟨rfl, .inr ⟨_, .inr ⟨y, k, rfl⟩, h⟩⟩
  · rintro ⟨rfl, ⟨⟨r, rfl⟩, h⟩ | ⟨b, ⟨y, rfl⟩ | ⟨y, k, rfl⟩, h⟩⟩
    · exact .irdNone r h
    · exact .clsNotBuilt y h
    · exact .prdNotBuilt y k h

theorem answers_range_iff (i : Instr) (s : State) (d : Word) : Answers i s .ERR_RANGE d ↔
    ∃ b y k, i = .prd b y k ∧ s.TBUILT.get b = true ∧ (s.listIR b y).length ≤ k.toNat ∧
      d = BitVec.ofNat 32 (s.listIR b y).length := by
  rw [answers_error_iff (by decide)]
  constructor
  · rintro (_ | _ | _ | _ | _ | ⟨h, hk⟩)
    exact ⟨_, _, _, rfl, h, hk, rfl⟩
  · rintro ⟨b, y, k, rfl, h, hk, rfl⟩
    exact .prdRange h hk

/-! The words that are no command (R174). -/

theorem step_present_illegal {cw : Word} (hill : legalWord cw = false) (s : State) (wd : Word) :
    step (s.present ⟨cw, wd⟩) = .next (s.withResponse .ERR_ILLEGAL 0) := by
  obtain ⟨_, _, hstep⟩ := illegalWordsAnswerErrIllegal
  exact hstep s cw wd hill

theorem step_present_illegal_iff (s : State) (cw wd : Word) :
    step (s.present ⟨cw, wd⟩) = .next (s.withResponse .ERR_ILLEGAL 0) ↔ legalWord cw = false := by
  refine ⟨fun h => ?_, fun hill => step_present_illegal hill s wd⟩
  rw [legalWord_eq_false_iff cw wd]
  cases hd : decode cw wd with
  | error e => exact ⟨e, rfl⟩
  | ok i =>
    have hexec := (step_present_ok (c := ⟨cw, wd⟩) hd).symm.trans h
    exact (not_answers_illegal i s 0 ⟨_, hexec, rfl⟩).elim

/-- Settles O48: a refused word writes the response only; for a command, MINV is the one that writes more, and its only
error is ERR_SINGULAR. -/
theorem errorsChangeNothingElse : Obligations.ErrorsChangeNothingElse := by
  unfold Obligations.ErrorsChangeNothingElse
  refine ⟨fun s t c ⟨code, d⟩ ht hr hcode => ?_, fun i s t d ht hr => ?_⟩
  · cases hd : decode c.cw c.wd with
    | error e =>
      obtain rfl := next_injective ((step_present_error hd).symm.trans ht)
      cases hr
      rfl
    | ok i =>
      have hne : code ≠ .OK := by rintro rfl; simp at hcode
      obtain ⟨hcause, rfl⟩ := errorCause_of_exec ((step_present_ok hd).symm.trans ht) hr hne
      have hi : i ≠ .minv := by rintro rfl; cases hcause; simp at hcode
      exact s.afterError_of_ne_minv hi code d
  · obtain ⟨hcause, rfl⟩ := errorCause_of_exec ht hr (by decide)
    cases hcause with
    | minv h => exact .inl ⟨rfl, s.afterError_minv _ _⟩
    | irdSingular r h => exact .inr ⟨⟨r, rfl⟩, rfl⟩

/-- Settles O49: the table of causes is complete, and each error leaves the state it gives. -/
theorem errorCausesAreComplete : Obligations.ErrorCausesAreComplete := by
  unfold Obligations.ErrorCausesAreComplete
  exact ⟨step_present_illegal_iff, fun i s t code d ht hr hne => (errorCause_of_exec ht hr hne).2, not_answers_illegal,
    answers_singular_iff, answers_notReady_iff, answers_range_iff⟩

/-- Settles O50: an illegal word is answered before the state is looked at, and PRD on a bank that is not built before
`k` is; row index 40 makes an illegal word. -/
theorem errorPriority : Obligations.ErrorPriority := by
  unfold Obligations.ErrorPriority
  exact ⟨fun s cw wd hill => ⟨_, step_present_illegal hill s wd, rfl⟩,
    fun s b y k hb => ⟨_, exec_prd_notBuilt hb y k, rfl⟩,
    fun s wd => ⟨_, step_present_illegal (by decide) s wd, rfl⟩⟩

end Sys2Proof.Machine
end

section
/-! A hardware reset event (R200, R201): the whole next state, and that it is the table of R34. -/

namespace Sys2Proof.Machine

/-- Nothing of `s`, and nothing of the command in flight, is left: the host's later events stand behind the reset state
(log entry 4). -/
theorem step_reset {s : State} {inFlight : Option Command} {rest : List HostEvent}
    (h : s.host = .reset inFlight :: rest) : step s = .next (State.reset.accept rest) := by
  simp only [step, h]
  rfl

/-- The table says nothing about the host's events. -/
theorem IsResetBlock.accept {s : State} (h : IsResetBlock s) (rest : List HostEvent) : IsResetBlock (s.accept rest) :=
  ⟨h.M, h.INV, h.ISTAT, h.FCOL, h.T, h.IRzero, h.IRother, h.TBUILT⟩

/-- Settles O11: either form of reset event leaves `State.reset` in front of the host's later events. -/
theorem hardwareResetDiscardsTheCommand : Obligations.HardwareResetDiscardsTheCommand := by
  unfold Obligations.HardwareResetDiscardsTheCommand
  intro s inFlight rest h
  have hrsp : (State.reset.accept rest).rsp = none := (State.accept_rsp _ rest).trans State.reset_rsp
  exact ⟨_, step_reset h, isResetBlock_reset.accept rest, hrsp⟩

end Sys2Proof.Machine
end

section
/-! The decoder, the encoder and the opcode map are one correspondence between commands and legal words (R75, R81). -/

namespace Sys2Proof.Machine

/-! Decoding an encoded command. -/

/-- Every field of a packed word is what it was packed from, and each format reads its fields only. -/
theorem decode_encode (i : Instr) : decode (encode i).cw (encode i).wd = .ok i := by
  cases i with
  | nop | stat | rst | minv => simp [decode, decodeZ, encode, encodeWord]
  | mwr r wd => exact decode_encode_mwr r wd
  | mrd r | ird r => simp [decode, decodeR, encode, encodeWord]
  | tbld b => simp [decode, decodeB, encode, encodeWord]
  | trd b x | cls b x => simp [decode, decodeX, encode, encodeWord]
  | twr b x v | prd b x v => simp [decode, decodeXI, encode, encodeWord]

/-- Settles O1: by the format of the command. -/
theorem decodeOfEncode : Obligations.DecodeOfEncode := by
  unfold Obligations.DecodeOfEncode
  exact decode_encode

/-! Encoding a decoded command: what a format accepts fixes the fields that it does not read to 0, so the command
determines the word. -/

section Formats

variable {cw : Word} {op : BitVec 8} {j : Instr}

theorem packWord_eq {b : BitVec 1} {idx imm : Byte} (hz : zField cw = 0) (hop : opField cw = op) (hb : bField cw = b)
    (hidx : idxField cw = idx) (himm : immField cw = imm) : packWord op b idx imm = cw := by
  rw [← packWord_fields hz, hop, hb, hidx, himm]

theorem encodeWord_of_decodeZ {i : Instr} (hi : encodeWord i = packWord op 0 0 0) (hz : zField cw = 0)
    (h : opField cw = op ∧ decodeZ cw i = .ok j) : encodeWord j = cw := by
  obtain ⟨rfl, hb, hidx, himm⟩ := decodeZ_ok.mp h.2
  exact hi.trans (packWord_eq hz h.1 hb hidx himm)

theorem encodeWord_of_decodeR {f : Row → Instr} (hf : ∀ r, encodeWord (f r) = packWord op 0 (idxOfRow r) 0)
    (hz : zField cw = 0) (h : opField cw = op ∧ decodeR cw f = .ok j) : encodeWord j = cw := by
  obtain ⟨r, rfl, hidx, hb, himm⟩ := decodeR_ok.mp h.2
  exact (hf r).trans (packWord_eq hz h.1 hb hidx himm)

theorem encodeWord_of_decodeB {f : Bank → Instr} (hf : ∀ b, encodeWord (f b) = packWord op (bitOfBank b) 0 0)
    (hz : zField cw = 0) (h : opField cw = op ∧ decodeB cw f = .ok j) : encodeWord j = cw := by
  obtain ⟨b, rfl, hb, hidx, himm⟩ := decodeB_ok.mp h.2
  exact (hf b).trans (packWord_eq hz h.1 hb hidx himm)

theorem encodeWord_of_decodeX {f : Bank → Byte → Instr}
    (hf : ∀ b x, encodeWord (f b x) = packWord op (bitOfBank b) x 0) (hz : zField cw = 0)
    (h : opField cw = op ∧ decodeX cw f = .ok j) : encodeWord j = cw := by
  obtain ⟨b, x, rfl, hb, hidx, himm⟩ := decodeX_ok.mp h.2
  exact (hf b x).trans (packWord_eq hz h.1 hb hidx himm)

theorem encodeWord_of_decodeXI {f : Bank → Byte → Byte → Instr}
    (hf : ∀ b x v, encodeWord (f b x v) = packWord op (bitOfBank b) x v) (hz : zField cw = 0)
    (h : opField cw = op ∧ decodeXI cw f = .ok j) : encodeWord j = cw := by
  obtain ⟨b, x, v, rfl, hb, hidx, himm⟩ := decodeXI_ok.mp h.2
  exact (hf b x v).trans (packWord_eq hz h.1 hb hidx himm)

end Formats

theorem encodeWord_of_decode {cw wd : Word} {i : Instr} (h : decode cw wd = .ok i) : encodeWord i = cw := by
  obtain ⟨hz, h⟩ := decode_ok h
  rcases h with h | h | h | h | h | h | h | h | h | h | h | h
  · exact encodeWord_of_decodeZ rfl hz h
  · exact encodeWord_of_decodeZ rfl hz h
  · exact encodeWord_of_decodeZ rfl hz h
  · exact encodeWord_of_decodeR (fun _ => rfl) hz h
  · exact encodeWord_of_decodeR (fun _ => rfl) hz h
  · exact encodeWord_of_decodeZ rfl hz h
  · exact encodeWord_of_decodeR (fun _ => rfl) hz h
  · exact encodeWord_of_decodeXI (fun _ _ _ => rfl) hz h
  · exact encodeWord_of_decodeX (fun _ _ => rfl) hz h
  · exact encodeWord_of_decodeB (fun _ => rfl) hz h
  · exact encodeWord_of_decodeX (fun _ _ => rfl) hz h
  · exact encodeWord_of_decodeXI (fun _ _ _ => rfl) hz h

/-- Only the branch of opcode `0x10` gives an MWR, and it takes `wd` for the row. -/
theorem eq_wd_of_decode_mwr {cw wd w : Word} {r : Row} (h : decode cw wd = .ok (.mwr r w)) : w = wd := by
  have henc := encodeWord_of_decode h
  have hdec := decode_encode (.mwr r wd)
  rw [show (encode (.mwr r wd)).cw = cw from henc, show (encode (.mwr r wd)).wd = wd from rfl, h] at hdec
  injection hdec with hdec
  injection hdec

/-- Settles O2: by the format that the decoder chose. -/
theorem encodeOfDecode : Obligations.EncodeOfDecode := by
  unfold Obligations.EncodeOfDecode
  refine fun cw wd i h => ⟨encodeWord_of_decode h, ?_⟩
  rintro r w rfl
  exact eq_wd_of_decode_mwr h

/-! The opcode map. -/

/-- The encoding of each command matches the row with its mnemonic. -/
theorem encodeWord_matches_row (i : Instr) :
    ∃ row ∈ opcodeMap, row.mnemonic = i.mnemonic ∧ encodeWord i &&& row.mask = row.pattern :=
  match i with
  | .nop => Laws.EncodeMatchesRow.nop
  | .stat => Laws.EncodeMatchesRow.stat
  | .rst => Laws.EncodeMatchesRow.rst
  | .mwr r wd => Laws.EncodeMatchesRow.mwr r wd
  | .mrd r => Laws.EncodeMatchesRow.mrd r
  | .minv => Laws.EncodeMatchesRow.minv
  | .ird r => Laws.EncodeMatchesRow.ird r
  | .twr b x v => Laws.EncodeMatchesRow.twr b x v
  | .trd b x => Laws.EncodeMatchesRow.trd b x
  | .tbld b => Laws.EncodeMatchesRow.tbld b
  | .cls b y => Laws.EncodeMatchesRow.cls b y
  | .prd b y k => Laws.EncodeMatchesRow.prd b y k

theorem row_eq_of_mnemonic_eq {row row' : OpcodeRow} (h : row ∈ opcodeMap) (h' : row' ∈ opcodeMap)
    (hm : row.mnemonic = row'.mnemonic) : row = row' := by
  have key : ∀ a ∈ opcodeMap, ∀ b ∈ opcodeMap, a.mnemonic = b.mnemonic → a = b := by decide
  exact key _ h _ h' hm

/-- The masks and patterns of the opcode map ask for `z = 0`. -/
theorem zField_of_mem {row : OpcodeRow} (h : row ∈ opcodeMap) :
    zField row.mask = BitVec.allOnes 7 ∧ zField row.pattern = 0 := by
  revert row
  decide

theorem matches_iff_fields {row : OpcodeRow} (hrow : row ∈ opcodeMap) (cw : Word) :
    cw &&& row.mask = row.pattern ↔ opField cw = opField row.pattern ∧ zField cw = 0 ∧
      bField cw &&& bField row.mask = bField row.pattern ∧ idxField cw &&& idxField row.mask = idxField row.pattern ∧
        immField cw &&& immField row.mask = immField row.pattern := by
  obtain ⟨hzm, hzp⟩ := zField_of_mem hrow
  rw [and_eq_iff_fields, opField_mask_of_mem hrow, hzm, hzp, BitVec.and_allOnes, BitVec.and_allOnes]

/-- A word has one opcode, and so matches one row. -/
theorem row_eq_of_matches {row row' : OpcodeRow} (h : row ∈ opcodeMap) (h' : row' ∈ opcodeMap) {cw : Word}
    (hm : cw &&& row.mask = row.pattern) (hm' : cw &&& row'.mask = row'.pattern) : row = row' := by
  obtain ⟨hop, -⟩ := (matches_iff_fields h cw).mp hm
  obtain ⟨hop', -⟩ := (matches_iff_fields h' cw).mp hm'
  exact row_eq_of_opField_eq h h' (hop.symm.trans hop')

/-- A word that decodes matches the row of its command. -/
theorem matches_row_of_decode {cw wd : Word} {i : Instr} (h : decode cw wd = .ok i) :
    ∃ row ∈ opcodeMap, row.mnemonic = i.mnemonic ∧ cw &&& row.mask = row.pattern :=
  encodeWord_of_decode h ▸ encodeWord_matches_row i

theorem exists_decode_of_matches {row : OpcodeRow} (hrow : row ∈ opcodeMap) {cw : Word}
    (hm : cw &&& row.mask = row.pattern) (wd : Word) : ∃ i, decode cw wd = .ok i := by
  have hlegal : legalWord cw = true := List.any_eq_true.mpr ⟨row, hrow, beq_iff_eq.mpr hm⟩
  exact (exists_decode_ok_iff cw wd).mpr ((legalWord_iff_fieldsLegal cw).mp hlegal)

/-- Settles O3: a word that matches a row is legal, so it decodes, and its command's row is the only one it matches. -/
theorem decoderIsTheOpcodeMap : Obligations.DecoderIsTheOpcodeMap := by
  unfold Obligations.DecoderIsTheOpcodeMap
  refine ⟨fun cw wd row hrow => ⟨fun hm => ?_, ?_⟩, fun cw => ?_⟩
  · obtain ⟨i, hi⟩ := exists_decode_of_matches hrow hm wd
    obtain ⟨row', hrow', hmn, hm'⟩ := matches_row_of_decode hi
    exact ⟨i, hi, by rw [← hmn, row_eq_of_matches hrow hrow' hm hm']⟩
  · rintro ⟨i, hi, hmn⟩
    obtain ⟨row', hrow', hmn', hm'⟩ := matches_row_of_decode hi
    rwa [row_eq_of_mnemonic_eq hrow hrow' (hmn.symm.trans hmn'.symm)]
  · have hnodup : opcodeMap.Pairwise (· ≠ ·) := by decide
    exact hnodup.imp_of_mem fun ha hb hne hm => hne (row_eq_of_matches ha hb hm.1 hm.2)

/-! The number of legal words. -/

/-- How many words of a field's width match the field of a row. -/
def fieldCount {w : Nat} (mask pattern : BitVec w) : Nat :=
  (Finset.univ.filter fun x : BitVec w => x &&& mask = pattern).card

/-- A row fixes `op` and `z`, and in the other fields each choice that matches makes a word of its own. -/
theorem card_matches {row : OpcodeRow} (hrow : row ∈ opcodeMap) :
    (Finset.univ.filter fun cw : Word => cw &&& row.mask = row.pattern).card =
      fieldCount (bField row.mask) (bField row.pattern) * (fieldCount (idxField row.mask) (idxField row.pattern) *
        fieldCount (immField row.mask) (immField row.pattern)) := by
  simp only [fieldCount, ← Finset.card_product]
  refine Finset.card_nbij' (fun cw => (bField cw, idxField cw, immField cw))
    (fun p => packWord (opField row.pattern) p.1 p.2.1 p.2.2) (fun cw h => ?_) (fun p h => ?_) (fun cw h => ?_)
    (fun p _ => by simp)
  · simp_all [matches_iff_fields hrow]
  · simp_all [matches_iff_fields hrow]
  · simp only [Finset.coe_filter, Finset.mem_univ, true_and, Set.mem_ofPred_eq, matches_iff_fields hrow] at h
    obtain ⟨hop, hz, -⟩ := h
    exact hop ▸ packWord_fields hz

theorem filter_legalWord_eq_biUnion :
    (Finset.univ.filter fun cw : Word => legalWord cw = true) =
      opcodeMap.toFinset.biUnion fun row => Finset.univ.filter fun cw : Word => cw &&& row.mask = row.pattern := by
  ext cw
  simp [legalWord, OpcodeRow.matches]

/-- Settles O4: the sum over the rows, which no two words share. -/
theorem legalWordCount : Obligations.LegalWordCount := by
  unfold Obligations.LegalWordCount
  rw [filter_legalWord_eq_biUnion, Finset.card_biUnion]
  · rw [Finset.sum_congr rfl fun row hrow => card_matches (List.mem_toFinset.mp hrow)]
    decide +kernel
  · intro a ha b hb hne
    refine Finset.disjoint_filter.mpr fun cw _ hma hmb => hne ?_
    exact row_eq_of_matches (List.mem_toFinset.mp ha) (List.mem_toFinset.mp hb) hma hmb

/-- Settles O6: the decoder evaluated on the words of the vectors. -/
theorem sampleWordsDecode : Obligations.SampleWordsDecode := by
  unfold Obligations.SampleWordsDecode
  exact ⟨rfl, rfl, rfl, rfl, rfl, rfl, rfl, rfl, rfl, rfl, rfl, rfl, fun i => ⟨nofun, nofun, nofun⟩⟩

end Sys2Proof.Machine
end

section
/-! The step of the block (R6, R70, R71), and sequences of commands (R60) as runs of their meanings. -/

namespace Sys2Proof.Machine

/-! One step. -/

/-- Every event leads to a next state. -/
theorem exists_step (s : State) : ∃ t, step s = .next t := by
  rcases step_cases s with ⟨_, h⟩ | ⟨_, _, _, h⟩ | ⟨_, rest, i, _, _, h⟩ | ⟨_, _, _, _, _, h⟩
  · exact ⟨_, h⟩
  · exact ⟨_, h⟩
  · obtain ⟨t, _, ht, _⟩ := exec_answers i (s.accept rest)
    exact ⟨t, h.trans ht⟩
  · exact ⟨_, h⟩

/-- A command at the head of the host's sequence is the one that is presented to the block. -/
theorem step_of_host {s : State} {c : Command} {rest : List HostEvent} (h : s.host = .command c :: rest) :
    step s = step ((s.accept rest).present c) := by
  simp only [step, h, State.present_host, State.accept_host]
  rfl

/-- Settles O8: the step on a command that decodes. -/
theorem stepRunsDecodedCommand : Obligations.StepRunsDecodedCommand := by
  unfold Obligations.StepRunsDecodedCommand
  intro s c rest i h hd
  exact (step_of_host h).trans (step_present_ok hd)

/-- Settles O9: an accepted command is answered by its meaning, a refused word by ERR_ILLEGAL. -/
theorem everyCommandIsAnswered : Obligations.EveryCommandIsAnswered := by
  unfold Obligations.EveryCommandIsAnswered
  refine ⟨exists_step, fun s c rest h => ?_⟩
  rw [step_of_host h]
  exact step_present_answers (s.accept rest) c

/-- Settles O10: the idle step. -/
theorem idleBlockKeepsItsState : Obligations.IdleBlockKeepsItsState := by
  unfold Obligations.IdleBlockKeepsItsState
  intro s h
  simp only [step, h]
  simp only [idle, ← h]

/-- Settles O12: a command or a reset, the event is taken off the host's sequence. -/
theorem hostSequenceIsTakenInOrder : Obligations.HostSequenceIsTakenInOrder := by
  unfold Obligations.HostSequenceIsTakenInOrder
  intro s e rest h
  cases e with
  | reset f => exact ⟨_, step_reset h, rfl⟩
  | command c =>
    obtain ⟨t, _, ht, hhost, _⟩ := step_present_answers (s.accept rest) c
    exact ⟨t, (step_of_host h).trans ht, hhost⟩

/-! One command. -/

/-- What a command can leave, by the kind of command: `exec_cases` read off a next state. -/
inductive Effect (s : State) : Instr → State → Prop where
  | read {i : Instr} (hi : isRead i = true) (code : RCode) (data : Word) : Effect s i (s.withResponse code data)
  | rst : Effect s .rst (s.resetBlock.withResponse .OK 0)
  | mwr (r : Row) (wd : Word) : Effect s (.mwr r wd) ((s.setRowM r wd).clearInverse.withResponse .OK 0)
  | minvOk {A : BitMatrix 32} (hA : gf2Invert s.M = .ok A) :
      Effect s .minv ((s.setINV A).markValid.withResponse .OK 0)
  | minvSingular {c : Row} (hc : gf2Invert s.M = .singular c) :
      Effect s .minv ((s.markSingular c).withResponse .ERR_SINGULAR (zextCol (colField c)))
  | twr (b : Bank) (x v : Byte) : Effect s (.twr b x v) (((s.setEntryT b x v).setBuilt b false).withResponse .OK 0)
  | tbld (b : Bank) :
      Effect s (.tbld b) (((s.setIR b (buildInverse (s.T.get b))).setBuilt b true).withResponse .OK 0)

theorem effect_of_exec {i : Instr} {s t : State} (h : exec i s = .next t) : Effect s i t := by
  have ht : ∀ {t' : State}, exec i s = .next t' → t = t' := fun h' => next_injective (h.symm.trans h')
  rcases exec_cases i s with ⟨code, d, h', hi⟩ | ⟨rfl, h'⟩ | ⟨r, wd, rfl, h'⟩ | ⟨rfl, A, hA, h'⟩ | ⟨rfl, c, hc, h'⟩ |
      ⟨b, x, v, rfl, h'⟩ | ⟨b, rfl, h'⟩
  · exact ht h' ▸ .read hi code d
  · exact ht h' ▸ .rst
  · exact ht h' ▸ .mwr r wd
  · exact ht h' ▸ .minvOk hA
  · exact ht h' ▸ .minvSingular hc
  · exact ht h' ▸ .twr b x v
  · exact ht h' ▸ .tbld b

/-! Sequences of commands. -/

theorem exists_runs (s : State) (cs : List Command) : ∃ t, Runs s cs t ∧ t.host = s.host := by
  induction cs generalizing s with
  | nil => exact ⟨s, (runs_nil s s).mpr rfl, rfl⟩
  | cons c cs ih =>
    obtain ⟨t, _, ht, hhost, _⟩ := step_present_answers s c
    obtain ⟨u, hu, hhost'⟩ := ih t
    exact ⟨u, (runs_cons s u c cs).mpr ⟨t, ht, hu⟩, hhost'.trans hhost⟩

theorem runs_append {s u : State} {cs ds : List Command} :
    Runs s (cs ++ ds) u ↔ ∃ t, Runs s cs t ∧ Runs t ds u := by
  induction cs generalizing s with
  | nil => simp only [List.nil_append, runs_nil, exists_eq_left]
  | cons c cs ih =>
    simp only [List.cons_append, runs_cons, ih]
    constructor
    · rintro ⟨v, hv, t, ht, hu⟩
      exact ⟨t, ⟨v, hv, ht⟩, hu⟩
    · rintro ⟨t, ⟨v, hv, ht⟩, hu⟩
      exact ⟨v, hv, t, ht, hu⟩

/-- Settles O13: a run of two parts goes through the one state in which the first part ends. -/
theorem commandsApplyInOrder : Obligations.CommandsApplyInOrder := by
  unfold Obligations.CommandsApplyInOrder
  refine ⟨exists_runs, fun s t u cs ds ht => runs_append.trans ⟨?_, fun hu => ⟨t, ht, hu⟩⟩⟩
  rintro ⟨t', ht', hu⟩
  exact runs_deterministic ht' ht ▸ hu

/-- A sequence of commands as words runs as the meanings of the commands. -/
theorem runs_encode_cons {s u : State} {i : Instr} {is : List Instr} :
    Runs s ((i :: is).map encode) u ↔ ∃ t, exec i s = .next t ∧ Runs t (is.map encode) u := by
  rw [List.map_cons, runs_cons, step_present_ok (decode_encode i)]

/-- The induction over a sequence of commands, once: what each of them keeps, the sequence keeps. -/
theorem runs_encode_keeps {P : State → Prop} {is : List Instr}
    (hstep : ∀ i ∈ is, ∀ s t, exec i s = .next t → P s → P t) {s t : State} (h : Runs s (is.map encode) t)
    (hs : P s) : P t := by
  induction is generalizing s with
  | nil => exact (runs_nil s t).mp h ▸ hs
  | cons i is ih =>
    obtain ⟨u, hu, hr⟩ := runs_encode_cons.mp h
    exact ih (fun j hj => hstep j (List.mem_cons_of_mem i hj)) hr (hstep i List.mem_cons_self s u hu hs)

/-! The latest write (R60). -/

theorem rowAfter_cons_read {i : Instr} (hi : isRead i = true) (r : Row) (w : Word) (is : List Instr) :
    rowAfter r w (i :: is) = rowAfter r w is := by
  cases i with
  | nop | stat | mrd | ird | trd | cls | prd => rfl
  | rst | mwr | minv | twr | tbld => cases hi

theorem entryAfter_cons_read {i : Instr} (hi : isRead i = true) (b : Bank) (x v : Byte) (is : List Instr) :
    entryAfter b x v (i :: is) = entryAfter b x v is := by
  cases i with
  | nop | stat | mrd | ird | trd | cls | prd => rfl
  | rst | mwr | minv | twr | tbld => cases hi

theorem State.setEntryT_entryT (s : State) (b c : Bank) (x x' v : Byte) :
    (s.setEntryT b x v).entryT c x' = if b = c ∧ x = x' then v else s.entryT c x' := by
  by_cases hb : b = c
  · subst hb
    simp only [State.setEntryT_entryT_same, true_and]
  · rw [State.setEntryT_entryT_other s (Ne.symm hb), if_neg fun h => hb h.1]

/-- One command does to a row what `rowAfter` says of it. -/
theorem rowAfter_cons_of_exec {i : Instr} {s t : State} (h : exec i s = .next t) (r : Row) (is : List Instr) :
    rowAfter r (s.rowM r) (i :: is) = rowAfter r (t.rowM r) is := by
  cases effect_of_exec h with
  | read hi => exact rowAfter_cons_read hi r _ is
  | rst => exact congrArg (rowAfter r · is) (zeroMatrix_row r).symm
  | mwr r' wd => exact congrArg (rowAfter r · is) (State.setRowM_rowM s r' r wd).symm
  | minvOk | minvSingular | twr | tbld => rfl

/-- One command does to an entry what `entryAfter` says of it. -/
theorem entryAfter_cons_of_exec {i : Instr} {s t : State} (h : exec i s = .next t) (b : Bank) (x : Byte)
    (is : List Instr) : entryAfter b x (s.entryT b x) (i :: is) = entryAfter b x (t.entryT b x) is := by
  cases effect_of_exec h with
  | read hi => exact entryAfter_cons_read hi b x _ is
  | rst => exact congrArg (entryAfter b x · is) ((isResetBlock_resetBlock s).T b x).symm
  | twr b' x' v => exact congrArg (entryAfter b x · is) (State.setEntryT_entryT s b' b x' x v).symm
  | mwr | minvOk | minvSingular | tbld => rfl

theorem rowM_of_runs {s t : State} {is : List Instr} (h : Runs s (is.map encode) t) (r : Row) :
    t.rowM r = rowAfter r (s.rowM r) is := by
  induction is generalizing s with
  | nil => exact (runs_nil s t).mp h ▸ rfl
  | cons i is ih =>
    obtain ⟨u, hu, hr⟩ := runs_encode_cons.mp h
    rw [rowAfter_cons_of_exec hu, ih hr]

theorem entryT_of_runs {s t : State} {is : List Instr} (h : Runs s (is.map encode) t) (b : Bank) (x : Byte) :
    t.entryT b x = entryAfter b x (s.entryT b x) is := by
  induction is generalizing s with
  | nil => exact (runs_nil s t).mp h ▸ rfl
  | cons i is ih =>
    obtain ⟨u, hu, hr⟩ := runs_encode_cons.mp h
    rw [entryAfter_cons_of_exec hu, ih hr]

/-- Settles O14: command by command from the reset values. -/
theorem latestWriteIsHeld : Obligations.LatestWriteIsHeld := by
  unfold Obligations.LatestWriteIsHeld
  refine fun is t h => ⟨fun r => ?_, fun b x => ?_⟩
  · have hreset : State.reset.rowM r = 0 := zeroMatrix_row r
    exact hreset ▸ rowM_of_runs h r
  · have hreset : State.reset.entryT b x = 0 := isResetBlock_reset.T b x
    exact hreset ▸ entryT_of_runs h b x

end Sys2Proof.Machine
end

section
/-! The invariants of R33: they hold at reset, and every step keeps them. -/

namespace Sys2Proof.Machine

/-- The filter of all bytes for an all-zero table keeps all of them or none. -/
theorem buildInverse_zeroTable : buildInverse zeroTable = resetRelation := by
  refine relation_ext fun y => ?_
  rw [listAt_buildInverse, listAt_resetRelation]
  by_cases hy : y = 0
  · subst hy
    simp
  · rw [if_neg hy, List.filter_eq_nil_iff]
    intro x _ hx
    exact hy ((beq_iff_eq.mp hx).symm.trans (tableAt_zeroTable x))

/-- Settles O16: both banks hold the zero table and its relation. -/
theorem resetRelationIsThatOfTheZeroTable : Obligations.ResetRelationIsThatOfTheZeroTable := by
  unfold Obligations.ResetRelationIsThatOfTheZeroTable
  intro b
  rw [State.reset_IR, State.reset_T, PerBank.get_mk_self, PerBank.get_mk_self, buildInverse_zeroTable]

/-- The ports are no part of the block (R20). -/
theorem sameBlock_port (s : State) (e : List HostEvent) (r : Option Response) :
    SameBlock s { s with host := e, rsp := r } :=
  ⟨⟨rfl, rfl, rfl, rfl⟩, fun _ => ⟨rfl, rfl, rfl⟩⟩

/-- The invariants speak of the seven fields of R20 only. -/
theorem Inv.of_sameBlock {s t : State} (h : Inv s) (hst : SameBlock s t) : Inv t := by
  obtain ⟨⟨hM, hINV, hI, hF⟩, hbank⟩ := hst
  exact {
    valid := fun hv => by rw [hM, hINV]; exact h.valid (hI ▸ hv)
    singular := fun hv => by rw [hM, hF]; exact h.singular (hI ▸ hv)
    fcol := fun hv => by rw [hF]; exact h.fcol (hI ▸ hv)
    built := fun b hb => by
      rw [(hbank b).IR, (hbank b).T]
      exact h.built b ((hbank b).TBUILT ▸ hb) }

theorem inv_reset : Inv State.reset where
  valid := nofun
  singular := nofun
  fcol _ := rfl
  built b hb := by rw [State.reset_TBUILT, PerBank.get_mk_self] at hb; cases hb

/-- Settles O42: nothing is valid, singular or built at reset. -/
theorem resetKeepsTheInvariants : Obligations.ResetKeepsTheInvariants := by
  unfold Obligations.ResetKeepsTheInvariants
  exact inv_reset

/-- A command that writes the matrix group makes `ISTAT` say what is now in it; one that writes a bank, its `TBUILT`. -/
theorem Inv.exec {i : Instr} {s t : State} (h : Inv s) (ht : exec i s = .next t) : Inv t := by
  obtain ⟨hvalid, hsingular, hfcol, hbuilt⟩ := h
  cases effect_of_exec ht with
  | read => exact ⟨hvalid, hsingular, hfcol, hbuilt⟩
  | rst => exact inv_reset.of_sameBlock (sameBlock_port _ s.host _)
  | mwr r wd => exact ⟨nofun, nofun, fun _ => rfl, hbuilt⟩
  | minvOk hA => exact ⟨fun _ => hA, nofun, fun _ => rfl, hbuilt⟩
  | minvSingular hc => exact ⟨nofun, fun _ => ⟨_, hc, rfl⟩, fun hne => absurd rfl hne, hbuilt⟩
  | twr b x v =>
    refine ⟨hvalid, hsingular, hfcol, fun c hc => ?_⟩
    obtain hcb : c ≠ b := by rintro rfl; simp at hc
    simpa [PerBank.get_set_other _ hcb] using hbuilt c (by simpa [PerBank.get_set_other _ hcb] using hc)
  | tbld b =>
    refine ⟨hvalid, hsingular, hfcol, fun c hc => ?_⟩
    by_cases hcb : c = b
    · subst hcb
      simp
    · simpa [PerBank.get_set_other _ hcb] using hbuilt c (by simpa [PerBank.get_set_other _ hcb] using hc)

theorem Inv.step {s t : State} (h : Inv s) (ht : step s = .next t) : Inv t := by
  have hport : ∀ e r, Inv { s with host := e, rsp := r } := fun e r => h.of_sameBlock (sameBlock_port s e r)
  rcases step_cases s with ⟨_, h'⟩ | ⟨_, rest, hs, _⟩ | ⟨_, rest, i, _, _, h'⟩ | ⟨_, rest, _, _, _, h'⟩
  · exact next_injective (h'.symm.trans ht) ▸ hport s.host none
  · exact next_injective ((step_reset hs).symm.trans ht) ▸ inv_reset.of_sameBlock (sameBlock_port _ rest none)
  · exact (hport rest s.rsp).exec (h'.symm.trans ht)
  · exact next_injective (h'.symm.trans ht) ▸ hport rest (some ⟨.ERR_ILLEGAL, 0⟩)

/-- Settles O43: by what a step can do, and for a command by its effect. -/
theorem stepKeepsTheInvariants : Obligations.StepKeepsTheInvariants := by
  unfold Obligations.StepKeepsTheInvariants
  exact fun s t h ht => h.step ht

end Sys2Proof.Machine
end

section
/-! What a command reads: the answers of two states agree where the fields that the command looks at do (R43, R145,
R185), and hidden contents stay hidden. -/

namespace Sys2Proof.Machine

/-! Read commands. -/

/-- The read command `i` is answered alike in both states, and leaves each as it is but for the response. -/
def SameAnswer (i : Instr) (s s' : State) : Prop :=
  ∃ code data, exec i s = .next (s.withResponse code data) ∧ exec i s' = .next (s'.withResponse code data)

theorem SameAnswer.nexts {i : Instr} {s s' t t' : State} (h : SameAnswer i s s') (ht : exec i s = .next t)
    (ht' : exec i s' = .next t') : ∃ code data, t = s.withResponse code data ∧ t' = s'.withResponse code data := by
  obtain ⟨code, data, hs, hs'⟩ := h
  exact ⟨code, data, next_injective (ht.symm.trans hs), next_injective (ht'.symm.trans hs')⟩

/-- STAT looks at the status fields. -/
theorem sameAnswer_stat {s s' : State} (hI : s'.ISTAT = s.ISTAT) (hF : s'.FCOL = s.FCOL)
    (hB : s'.TBUILT = s.TBUILT) : SameAnswer .stat s s' := by
  refine ⟨_, _, exec_stat s, ?_⟩
  rw [exec_stat, State.statusWord, hI, hF, hB, ← State.statusWord]

theorem sameAnswer_mrd {s s' : State} (hM : s'.M = s.M) (r : Row) : SameAnswer (.mrd r) s s' := by
  refine ⟨_, _, exec_mrd s r, ?_⟩
  rw [exec_mrd, State.rowM, hM, ← State.rowM]

/-- IRD looks at `INV` while it is valid only. -/
theorem sameAnswer_ird {s s' : State} (hI : s'.ISTAT = s.ISTAT) (hF : s'.FCOL = s.FCOL)
    (hINV : s.ISTAT = .VALID → s'.INV = s.INV) (r : Row) : SameAnswer (.ird r) s s' := by
  cases h : s.ISTAT with
  | NONE => exact ⟨_, _, exec_ird_none h r, exec_ird_none (hI.trans h) r⟩
  | VALID =>
    refine ⟨_, _, exec_ird_valid h r, ?_⟩
    rw [exec_ird_valid (hI.trans h), State.rowINV, hINV h, ← State.rowINV]
  | SINGULAR =>
    refine ⟨_, _, exec_ird_singular h r, ?_⟩
    rw [exec_ird_singular (hI.trans h), hF]

theorem sameAnswer_trd {s s' : State} {b : Bank} (hT : s'.T.get b = s.T.get b) (x : Byte) :
    SameAnswer (.trd b x) s s' := by
  refine ⟨_, _, exec_trd s b x, ?_⟩
  rw [exec_trd, State.entryT, hT, ← State.entryT]

section Relation

/-! CLS and PRD look at the relation of their bank while it is built only. -/

variable {s s' : State} {b : Bank} (hB : s'.TBUILT.get b = s.TBUILT.get b)
  (hIR : s.TBUILT.get b = true → s'.IR.get b = s.IR.get b)

include hB hIR

theorem sameAnswer_cls (y : Byte) : SameAnswer (.cls b y) s s' := by
  cases h : s.TBUILT.get b with
  | true =>
    refine ⟨_, _, exec_cls_built h y, ?_⟩
    rw [exec_cls_built (hB.trans h), State.listIR, hIR h, ← State.listIR]
  | false => exact ⟨_, _, exec_cls_notBuilt h y, exec_cls_notBuilt (hB.trans h) y⟩

theorem sameAnswer_prd (y k : Byte) : SameAnswer (.prd b y k) s s' := by
  cases h : s.TBUILT.get b with
  | true =>
    have hlist : s'.listIR b y = s.listIR b y := by rw [State.listIR, hIR h, ← State.listIR]
    rcases Nat.lt_or_ge k.toNat (s.listIR b y).length with hk | hk
    · refine ⟨_, _, exec_prd_built h hk, ?_⟩
      rw [exec_prd_built (hB.trans h) (by rwa [hlist])]
      simp only [hlist]
    · refine ⟨_, _, exec_prd_range h hk, ?_⟩
      rw [exec_prd_range (hB.trans h) (by rwa [hlist]), hlist]
  | false => exact ⟨_, _, exec_prd_notBuilt h y k, exec_prd_notBuilt (hB.trans h) y k⟩

end Relation

theorem SameObservable.sameAnswer {s s' : State} (h : SameObservable s s') {i : Instr} (hi : isRead i = true) :
    SameAnswer i s s' := by
  obtain ⟨hM, hI, hF, hINV, hT, hB, hIR⟩ := h
  cases i with
  | nop => exact ⟨_, _, exec_nop s, exec_nop s'⟩
  | stat => exact sameAnswer_stat hI hF hB
  | mrd r => exact sameAnswer_mrd hM r
  | ird r => exact sameAnswer_ird hI hF hINV r
  | trd b x => exact sameAnswer_trd (by rw [hT]) x
  | cls b y => exact sameAnswer_cls (by rw [hB]) (hIR b) y
  | prd b y k => exact sameAnswer_prd (by rw [hB]) (hIR b) y k
  | rst | mwr | minv | twr | tbld => cases hi

/-! Hidden contents (R43). -/

theorem sameObservable_refl (s : State) : SameObservable s s :=
  ⟨rfl, rfl, rfl, fun _ => rfl, rfl, rfl, fun _ _ => rfl⟩

/-- What can be seen of a state does not include the ports. -/
theorem SameObservable.port {s s' : State} (h : SameObservable s s') (e e' : List HostEvent)
    (r r' : Option Response) : SameObservable { s with host := e, rsp := r } { s' with host := e', rsp := r' } :=
  ⟨h.M, h.ISTAT, h.FCOL, h.INV, h.T, h.TBUILT, h.IR⟩

/-- A write command is answered alike in both states, and what it makes visible it takes from visible fields. -/
theorem SameObservable.exec_write {s s' t t' : State} (h : SameObservable s s') {i : Instr} (hi : isRead i = false)
    (ht : exec i s = .next t) (ht' : exec i s' = .next t') : t'.rsp = t.rsp ∧ SameObservable t t' := by
  obtain ⟨hM, hI, hF, hINV, hT, hB, hIR⟩ := h
  cases effect_of_exec ht with
  | read hi' => rw [hi] at hi'; cases hi'
  | rst =>
    cases next_injective ht'
    exact ⟨rfl, rfl, rfl, rfl, fun _ => rfl, rfl, rfl, fun _ _ => rfl⟩
  | mwr r wd =>
    cases next_injective ht'
    exact ⟨rfl, by simp [hM], rfl, rfl, nofun, hT, hB, hIR⟩
  | minvOk hA =>
    cases next_injective ((exec_minv_ok (hM ▸ hA)).symm.trans ht')
    exact ⟨rfl, hM, rfl, rfl, fun _ => rfl, hT, hB, hIR⟩
  | minvSingular hc =>
    cases next_injective ((exec_minv_singular (hM ▸ hc)).symm.trans ht')
    exact ⟨rfl, hM, rfl, rfl, nofun, hT, hB, hIR⟩
  | twr b x v =>
    cases next_injective ht'
    refine ⟨rfl, hM, hI, hF, hINV, by simp [hT], by simp [hB], fun c hc => ?_⟩
    obtain hcb : c ≠ b := by rintro rfl; simp at hc
    exact hIR c (by simpa [PerBank.get_set_other _ hcb] using hc)
  | tbld b =>
    cases next_injective ht'
    refine ⟨by simp, hM, hI, hF, hINV, hT, by simp [hB], fun c hc => ?_⟩
    by_cases hcb : c = b
    · subst hcb
      simp [hT]
    · simpa [PerBank.get_set_other _ hcb] using hIR c (by simpa [PerBank.get_set_other _ hcb] using hc)

theorem exec_host {i : Instr} {s t : State} (h : exec i s = .next t) : t.host = s.host := by
  obtain ⟨t', _, ht', hhost, _⟩ := exec_answers i s
  exact next_injective (h.symm.trans ht') ▸ hhost

theorem SameObservable.exec {s s' t t' : State} (h : SameObservable s s') {i : Instr} (ht : exec i s = .next t)
    (ht' : exec i s' = .next t') : t'.rsp = t.rsp ∧ SameObservable t t' := by
  cases hi : isRead i with
  | false => exact h.exec_write hi ht ht'
  | true =>
    obtain ⟨code, data, rfl, rfl⟩ := (h.sameAnswer hi).nexts ht ht'
    exact ⟨rfl, h.port _ _ _ _⟩

/-- Settles O53: for each event of the host, the two next states are again alike in what can be seen. -/
theorem hiddenStateIsNeverObserved : Obligations.HiddenStateIsNeverObserved := by
  unfold Obligations.HiddenStateIsNeverObserved
  intro s s' t t' h hhost ht ht'
  rcases step_cases s with ⟨hs, h1⟩ | ⟨_, rest, hs, _⟩ | ⟨c, rest, i, hs, hd, _⟩ | ⟨c, rest, _, hs, hd, _⟩
  · have h2 := idleBlockKeepsItsState s' (hhost.trans hs)
    cases next_injective (h1.symm.trans ht)
    cases next_injective (h2.symm.trans ht')
    exact ⟨rfl, hhost, h.port _ _ _ _⟩
  · cases next_injective ((step_reset hs).symm.trans ht)
    cases next_injective ((step_reset (hhost.trans hs)).symm.trans ht')
    exact ⟨rfl, rfl, sameObservable_refl _⟩
  · have h1 := (step_of_host hs).trans (step_present_ok hd)
    have h2 := (step_of_host (hhost.trans hs)).trans (step_present_ok hd)
    obtain ⟨hrsp, hobs⟩ := (h.port rest rest s.rsp s'.rsp).exec (h1.symm.trans ht) (h2.symm.trans ht')
    exact ⟨hrsp, (exec_host (h2.symm.trans ht')).trans (exec_host (h1.symm.trans ht)).symm, hobs⟩
  · have h1 := (step_of_host hs).trans (step_present_error hd)
    have h2 := (step_of_host (hhost.trans hs)).trans (step_present_error hd)
    cases next_injective (h1.symm.trans ht)
    cases next_injective (h2.symm.trans ht')
    exact ⟨rfl, rfl, h.port _ _ _ _⟩

end Sys2Proof.Machine
end

section
/-! What each command writes and what it leaves (R23, R24, R28, R54, R145), and what sequences of commands keep (R173,
R185). -/

namespace Sys2Proof.Machine

/-! The status fields. -/

/-- Settles O45: by the effect of the command. -/
theorem statusFieldsChangeOnlySo : Obligations.StatusFieldsChangeOnlySo := by
  unfold Obligations.StatusFieldsChangeOnlySo
  intro i s t h
  cases effect_of_exec h with
  | read hi =>
    cases i with
    | nop | stat | mrd | ird | trd | cls | prd => exact ⟨rfl, rfl, fun _ => rfl⟩
    | rst | mwr | minv | twr | tbld => cases hi
  | rst => exact ⟨rfl, rfl, fun b => PerBank.get_mk_self false b⟩
  | mwr r wd => exact ⟨rfl, rfl, fun _ => rfl⟩
  | minvOk hA => simp [hA]
  | minvSingular hc => simp [hc, colField]
  | twr b x v => exact ⟨rfl, rfl, fun c => by simp [PerBank.get_set, eq_comm]⟩
  | tbld b => exact ⟨rfl, rfl, fun c => by simp [PerBank.get_set, eq_comm]⟩

/-! Frames. -/

theorem withResponse_of_exec_read {i : Instr} (hi : isRead i = true) {s t : State} (h : exec i s = .next t) :
    ∃ code data, t = s.withResponse code data := by
  cases effect_of_exec h with
  | read _ code data => exact ⟨code, data, rfl⟩
  | rst | mwr | minvOk | minvSingular | twr | tbld => cases hi

/-- A read answers the same after another read: the port is all that the other one wrote. -/
theorem exec_read_again {i j : Instr} {s t u : State} (hi : isRead i = true) (hj : isRead j = true)
    (ht : exec i s = .next t) (hu : exec j t = .next u) : exec i u = .next t := by
  obtain ⟨code, data, rfl⟩ := withResponse_of_exec_read hi ht
  obtain ⟨code', data', rfl⟩ := withResponse_of_exec_read hj hu
  exact exec_port ht s.host (some ⟨code', data'⟩)

/-- A table command writes its own bank only. -/
theorem frame_of_table_command {i : Instr} {b : Bank} {s t : State} (hi : bankOf i = some b)
    (h : exec i s = .next t) : SameMatrixGroup s t ∧ ∀ c, c ≠ b → SameBank c s t := by
  have hset : ∀ {α : Type} (p : PerBank α) (v : α) {c : Bank}, c ≠ b → (p.set b v).get c = p.get c :=
    fun p v _ hc => PerBank.get_set_other p hc v
  cases effect_of_exec h with
  | read => exact ⟨⟨rfl, rfl, rfl, rfl⟩, fun _ _ => ⟨rfl, rfl, rfl⟩⟩
  | rst | mwr | minvOk | minvSingular => cases hi
  | twr b' x v =>
    cases hi
    exact ⟨⟨rfl, rfl, rfl, rfl⟩, fun c hc => ⟨hset _ _ hc, rfl, hset _ _ hc⟩⟩
  | tbld b' =>
    cases hi
    exact ⟨⟨rfl, rfl, rfl, rfl⟩, fun c hc => ⟨rfl, hset _ _ hc, hset _ _ hc⟩⟩

/-- A matrix command writes no table state. -/
theorem frame_of_matrix_command {i : Instr} {s t : State} (hi : isMatrixCommand i = true)
    (h : exec i s = .next t) : SameTableGroup s t := by
  cases effect_of_exec h with
  | read | mwr | minvOk | minvSingular => exact fun _ => ⟨rfl, rfl, rfl⟩
  | rst | twr | tbld => cases hi

/-- Settles O46: reads by their frame, writes by their effect. -/
theorem readsHaveNoSideEffect : Obligations.ReadsHaveNoSideEffect := by
  unfold Obligations.ReadsHaveNoSideEffect
  refine ⟨fun i s hi => ?_, fun i j s t u hi hj => exec_read_again hi hj, fun s t => ⟨fun r wd h => ?_,
    fun b x v h => ?_, fun h => ⟨exec_minv_keeps_M h, frame_of_matrix_command rfl h⟩, fun b h => ?_, fun h => ?_⟩⟩
  · obtain ⟨t, _, ht, _⟩ := exec_answers i s
    obtain ⟨code, data, rfl⟩ := withResponse_of_exec_read hi ht
    exact ⟨⟨code, data⟩, ht⟩
  · have hframe := frame_of_matrix_command rfl h
    cases next_injective h
    exact ⟨rfl, rfl, rfl, hframe⟩
  · obtain ⟨hmat, hbank⟩ := frame_of_table_command rfl h
    cases next_injective h
    exact ⟨PerBank.get_set_same _ _ _, rfl, hbank, hmat⟩
  · obtain ⟨hmat, hbank⟩ := frame_of_table_command rfl h
    cases next_injective h
    exact ⟨PerBank.get_set_same _ _ _, rfl, hbank, hmat⟩
  · cases next_injective h
    exact (isResetBlock_resetBlock s).withResponse .OK 0

/-! Independence. -/

/-- A table command sees its own bank only. -/
theorem sameBank_of_table_command {i : Instr} {b : Bank} {s s' t t' : State} (hi : bankOf i = some b)
    (h : SameBank b s s') (ht : exec i s = .next t) (ht' : exec i s' = .next t') :
    t.rsp = t'.rsp ∧ SameBank b t t' := by
  have hread : SameAnswer i s s' → t.rsp = t'.rsp ∧ SameBank b t t' := fun hans => by
    obtain ⟨code, data, rfl, rfl⟩ := hans.nexts ht ht'
    exact ⟨rfl, h.T, h.IR, h.TBUILT⟩
  cases i with
  | nop | stat | rst | mwr | mrd | minv | ird => cases hi
  | trd b' x => cases hi; exact hread (sameAnswer_trd h.T x)
  | cls b' y => cases hi; exact hread (sameAnswer_cls h.TBUILT (fun _ => h.IR) y)
  | prd b' y k => cases hi; exact hread (sameAnswer_prd h.TBUILT (fun _ => h.IR) y k)
  | twr b' x v =>
    cases hi
    cases next_injective ht
    cases next_injective ht'
    exact ⟨rfl, by simp [h.T], h.IR, by simp⟩
  | tbld b' =>
    cases hi
    cases next_injective ht
    cases next_injective ht'
    exact ⟨by simp, h.T, by simp [h.T], by simp⟩

/-- A matrix command sees the matrix group only. -/
theorem sameMatrixGroup_of_matrix_command {i : Instr} {s s' t t' : State} (hi : isMatrixCommand i = true)
    (h : SameMatrixGroup s s') (ht : exec i s = .next t) (ht' : exec i s' = .next t') :
    t.rsp = t'.rsp ∧ SameMatrixGroup t t' := by
  have hread : SameAnswer i s s' → t.rsp = t'.rsp ∧ SameMatrixGroup t t' := fun hans => by
    obtain ⟨code, data, rfl, rfl⟩ := hans.nexts ht ht'
    exact ⟨rfl, h.M, h.INV, h.ISTAT, h.FCOL⟩
  cases i with
  | nop | stat | rst | twr | trd | tbld | cls | prd => cases hi
  | mrd r => exact hread (sameAnswer_mrd h.M r)
  | ird r => exact hread (sameAnswer_ird h.ISTAT h.FCOL (fun _ => h.INV) r)
  | mwr r wd =>
    cases next_injective ht
    cases next_injective ht'
    exact ⟨rfl, by simp [h.M], h.INV, rfl, rfl⟩
  | minv =>
    cases hM : gf2Invert s.M with
    | ok A =>
      cases next_injective ((exec_minv_ok hM).symm.trans ht)
      cases next_injective ((exec_minv_ok (h.M ▸ hM)).symm.trans ht')
      exact ⟨rfl, h.M, rfl, rfl, rfl⟩
    | singular c =>
      cases next_injective ((exec_minv_singular hM).symm.trans ht)
      cases next_injective ((exec_minv_singular (h.M ▸ hM)).symm.trans ht')
      exact ⟨rfl, h.M, h.INV, rfl, rfl⟩

/-- Settles O47: the frames, and what the commands see. -/
theorem groupsAndBanksAreIndependent : Obligations.GroupsAndBanksAreIndependent := by
  unfold Obligations.GroupsAndBanksAreIndependent
  exact ⟨fun i b s t hi h => frame_of_table_command hi h,
    fun i b s s' t t' hi h ht ht' => sameBank_of_table_command hi h ht ht',
    fun i s t hi h => frame_of_matrix_command hi h,
    fun i s s' t t' hi h ht ht' => sameMatrixGroup_of_matrix_command hi h ht ht'⟩

/-! Sequences of commands. -/

theorem SameBlock.trans {s t u : State} (h : SameBlock s t) (h' : SameBlock t u) : SameBlock s u where
  matrices := ⟨h'.matrices.M.trans h.matrices.M, h'.matrices.INV.trans h.matrices.INV,
    h'.matrices.ISTAT.trans h.matrices.ISTAT, h'.matrices.FCOL.trans h.matrices.FCOL⟩
  tables b := ⟨(h'.tables b).T.trans (h.tables b).T, (h'.tables b).IR.trans (h.tables b).IR,
    (h'.tables b).TBUILT.trans (h.tables b).TBUILT⟩

theorem SameBlock.sameObservable {s t : State} (h : SameBlock s t) : SameObservable s t where
  M := h.matrices.M
  ISTAT := h.matrices.ISTAT
  FCOL := h.matrices.FCOL
  INV _ := h.matrices.INV
  T := PerBank.ext_get fun b => (h.tables b).T
  TBUILT := PerBank.ext_get fun b => (h.tables b).TBUILT
  IR b _ := (h.tables b).IR

/-- The one answer to a command that both states answer alike. -/
theorem SameAnswer.answers_iff {i : Instr} {s s' : State} (h : SameAnswer i s s') (code : RCode) (d : Word) :
    Answers i s' code d ↔ Answers i s code d := by
  obtain ⟨code', d', hs, hs'⟩ := h
  constructor
  · intro ha
    obtain ⟨rfl, rfl⟩ := ha.unique ⟨_, hs', rfl⟩
    exact ⟨_, hs, rfl⟩
  · intro ha
    obtain ⟨rfl, rfl⟩ := ha.unique ⟨_, hs, rfl⟩
    exact ⟨_, hs', rfl⟩

/-- Settles O54: each read keeps the block, and a read's answer is that of the block. -/
theorem interleavedReadsAreIndependent : Obligations.InterleavedReadsAreIndependent := by
  unfold Obligations.InterleavedReadsAreIndependent
  intro s t is i his hi h
  have hblock : SameBlock s t := by
    refine runs_encode_keeps (P := SameBlock s) (fun j hj u v hv hu => ?_) h (sameBlock_refl s)
    obtain ⟨code, data, rfl⟩ := withResponse_of_exec_read (his j hj) hv
    exact hu.trans (sameBlock_port u u.host _)
  exact ⟨hblock, (hblock.sameObservable.sameAnswer hi).answers_iff⟩

/-- RST leaves the zero matrix, which is singular; every command but RST and MWR leaves `M`. -/
theorem singular_M_of_exec {i : Instr} {s t : State} (hi : ∀ r wd, i ≠ .mwr r wd) (h : exec i s = .next t)
    (hs : Singular s.M) : Singular t.M := by
  cases effect_of_exec h with
  | read | minvOk | minvSingular | twr | tbld => exact hs
  | rst => exact singular_iff_exists_gf2Invert_singular.mpr ⟨0, gf2Invert_zeroMatrix⟩
  | mwr r wd => exact absurd rfl (hi r wd)

theorem answers_ird_ok {s : State} {r : Row} {d : Word} (h : Answers (.ird r) s .OK d) :
    s.ISTAT = .VALID ∧ d = s.rowINV r := by
  cases hI : s.ISTAT with
  | NONE => cases (h.unique ⟨_, exec_ird_none hI r, rfl⟩).1
  | SINGULAR => cases (h.unique ⟨_, exec_ird_singular hI r, rfl⟩).1
  | VALID => exact ⟨rfl, (h.unique ⟨_, exec_ird_valid hI r, rfl⟩).2⟩

/-- Settles O52: `M` stays singular, and under the invariants `ISTAT` is not VALID then. -/
theorem singularMatrixHasNoReadableInverse : Obligations.SingularMatrixHasNoReadableInverse := by
  unfold Obligations.SingularMatrixHasNoReadableInverse
  intro s t is hinv hsing hno h r d hans
  obtain ⟨hinv', hsing'⟩ : Inv t ∧ Singular t.M := by
    refine runs_encode_keeps (P := fun u => Inv u ∧ Singular u.M) (fun i hi u v hv hu => ?_) h ⟨hinv, hsing⟩
    exact ⟨hu.1.exec hv, singular_M_of_exec (fun r wd hmwr => hno r wd (hmwr ▸ hi)) hv hu.2⟩
  obtain ⟨hvalid, -⟩ := answers_ird_ok hans
  exact hsing' ⟨_, isInverse_of_gf2Invert_ok (hinv'.valid hvalid)⟩

end Sys2Proof.Machine
end

section
/-! The laws of `build_inverse` (R132), the packed layout (R29), and the answers of CLS and PRD about the present table
(R141 to R143). -/

namespace Sys2Proof.Machine

/-! Counting with the list of all bytes. -/

theorem toFinset_allBytes : allBytes.toFinset = Finset.univ :=
  Finset.eq_univ_of_forall fun x => List.mem_toFinset.mpr (mem_allBytes x)

theorem sum_map_allBytes (f : Byte → Nat) : (allBytes.map f).sum = ∑ y : Byte, f y := by
  rw [← toFinset_allBytes, List.sum_toFinset f allBytes_nodup]

/-- A filter of all bytes is as long as the set that it keeps. -/
theorem length_filter_allBytes (p : Byte → Bool) :
    (allBytes.filter p).length = (Finset.univ.filter fun x => p x = true).card := by
  rw [← toFinset_allBytes, ← List.toFinset_filter, List.toFinset_card_of_nodup (allBytes_nodup.filter p)]

theorem card_byte : Fintype.card Byte = 256 := by
  rw [← Finset.card_univ, ← toFinset_allBytes, List.toFinset_card_of_nodup allBytes_nodup, allBytes_length]

/-! The lists of `build_inverse(t)`. -/

section Lists

variable (t : Table)

theorem mem_listAt_buildInverse (x y : Byte) : x ∈ listAt (buildInverse t) y ↔ tableAt t x = y := by
  simp [listAt_buildInverse]

theorem listAt_buildInverse_sorted (y : Byte) :
    (listAt (buildInverse t) y).Pairwise fun a b => a.toNat < b.toNat := by
  rw [listAt_buildInverse]
  exact allBytes_sorted.filter _

/-- The list of `y` is as long as there are inputs that the table maps to `y`. -/
theorem length_listAt_buildInverse (y : Byte) :
    (listAt (buildInverse t) y).length = (Finset.univ.filter fun x => tableAt t x = y).card := by
  rw [listAt_buildInverse, length_filter_allBytes]
  simp only [beq_iff_eq]

/-- Each byte is an input of one output. -/
theorem sum_length_listAt_buildInverse : (∑ y : Byte, (listAt (buildInverse t) y).length) = 256 := by
  simp only [length_listAt_buildInverse]
  rw [← Finset.card_eq_sum_card_fiberwise fun x _ => Finset.mem_univ (tableAt t x), Finset.card_univ, card_byte]

theorem length_eq_zero_iff_no_input (y : Byte) :
    (listAt (buildInverse t) y).length = 0 ↔ ∀ x, tableAt t x ≠ y := by
  simp [length_listAt_buildInverse, Finset.filter_eq_empty_iff]

theorem length_eq_one_iff_one_input (y : Byte) :
    (listAt (buildInverse t) y).length = 1 ↔ ∃! x, tableAt t x = y := by
  rw [length_listAt_buildInverse, Finset.card_eq_one, Finset.singleton_iff_unique_mem]
  simp

theorem two_le_length_iff_two_inputs (y : Byte) :
    2 ≤ (listAt (buildInverse t) y).length ↔ ∃ x x', x ≠ x' ∧ tableAt t x = y ∧ tableAt t x' = y := by
  rw [length_listAt_buildInverse, ← Nat.lt_iff_add_one_le, Finset.one_lt_card_iff]
  refine exists₂_congr fun x x' => ?_
  rw [Finset.mem_filter_univ, Finset.mem_filter_univ, ← and_assoc, and_comm]

theorem bijective_iff_length_eq_one :
    Function.Bijective (tableAt t) ↔ ∀ y, (listAt (buildInverse t) y).length = 1 := by
  rw [Function.bijective_iff_existsUnique]
  exact forall_congr' fun y => (length_eq_one_iff_one_input t y).symm

/-- An empty list is one short of its share, and what the lists have above their share makes up for it. -/
theorem card_empty_eq_sum_excess :
    (Finset.univ.filter fun y : Byte => listAt (buildInverse t) y = []).card =
      (∑ y : Byte, ((listAt (buildInverse t) y).length - 1)) := by
  have hshare : ∀ l : List Byte, l.length + (if l = [] then 1 else 0) = (l.length - 1) + 1 := fun l => by
    cases l <;> rfl
  have hsum : ∑ y : Byte, ((listAt (buildInverse t) y).length + if listAt (buildInverse t) y = [] then 1 else 0) =
      ∑ y : Byte, (((listAt (buildInverse t) y).length - 1) + 1) :=
    Finset.sum_congr rfl fun y _ => hshare _
  rw [Finset.sum_add_distrib, Finset.sum_add_distrib, sum_length_listAt_buildInverse, Finset.sum_boole,
    Finset.sum_const, Finset.card_univ, card_byte] at hsum
  simp only [Nat.cast_id, smul_eq_mul, mul_one] at hsum
  omega

/-- A map of the bytes to themselves that is not bijective misses a byte. -/
theorem exists_deadEnd_of_not_bijective (h : ¬ Function.Bijective (tableAt t)) :
    ∃ y, classify (buildInverse t) y = .DeadEnd := by
  have hsurj : ¬ Function.Surjective (tableAt t) := fun hs => h (Finite.surjective_iff_bijective.mp hs)
  obtain ⟨y, hy⟩ := not_forall.mp hsurj
  exact ⟨y, classOfList_eq_deadEnd_iff.mpr ((length_eq_zero_iff_no_input t y).mpr (not_exists.mp hy))⟩

/-- A map of the bytes to themselves that is not bijective takes a value twice. -/
theorem exists_branching_of_not_bijective (h : ¬ Function.Bijective (tableAt t)) :
    ∃ y l, classify (buildInverse t) y = .Branching l := by
  have hinj : ¬ Function.Injective (tableAt t) := fun hi => h (Finite.injective_iff_bijective.mp hi)
  obtain ⟨x, x', hxx', hne⟩ := Function.not_injective_iff.mp hinj
  have htwo := (two_le_length_iff_two_inputs t (tableAt t x')).mpr ⟨x, x', hne, hxx', rfl⟩
  exact ⟨_, _, classOfList_eq_branching_iff.mpr ⟨htwo, rfl⟩⟩

/-- The lists tell the table: each input stands in the list of its output. -/
theorem buildInverse_injective {t' : Table} (h : buildInverse t' = buildInverse t) : t' = t := by
  refine table_ext fun x => ?_
  rw [← mem_listAt_buildInverse, h, mem_listAt_buildInverse]

end Lists

/-- Settles O36: the list of `y` is the inputs that the table maps to `y`, in increasing order. -/
theorem relationLaws : Obligations.RelationLaws := by
  unfold Obligations.RelationLaws
  refine fun t => ⟨mem_listAt_buildInverse t, listAt_buildInverse_sorted t, fun x => ?_,
    sum_length_listAt_buildInverse t, bijective_iff_length_eq_one t, card_empty_eq_sum_excess t,
    fun h => ⟨exists_deadEnd_of_not_bijective t h, exists_branching_of_not_bijective t h⟩,
    fun t' => buildInverse_injective t⟩
  simp only [mem_listAt_buildInverse]
  exact existsUnique_eq'

/-! The packed layout (R29). -/

theorem length_packedPre_buildInverse (t : Table) : (packedPre (buildInverse t)).length = 256 := by
  rw [packedPre, List.length_flatMap, sum_map_allBytes, sum_length_listAt_buildInverse]

/-- The bytes before `y`, `y`, and the bytes after it. -/
theorem allBytes_split (y : Byte) : allBytes = allBytes.take y.toNat ++ y :: allBytes.drop (y.toNat + 1) := by
  have hlt : y.toNat < allBytes.length := allBytes_length ▸ y.isLt
  have hy : allBytes[y.toNat] = y := by simp [allBytes]
  conv_lhs => rw [← List.take_append_drop y.toNat allBytes, List.drop_eq_getElem_cons hlt, hy]

/-- What stands before the list of `y` in the packed array is as long as `OFF[y]`. -/
theorem packedPre_split (pre : Relation) (y : Byte) :
    ∃ before after, packedPre pre = before ++ (listAt pre y ++ after) ∧ before.length = packedOff pre y := by
  refine ⟨(allBytes.take y.toNat).flatMap (listAt pre), (allBytes.drop (y.toNat + 1)).flatMap (listAt pre), ?_,
    List.length_flatMap⟩
  rw [packedPre, ← List.flatMap_cons, ← List.flatMap_append, ← allBytes_split]

/-- Settles O41: the packed array, split at the list of `y`. -/
theorem packedLayoutHoldsTheLists : Obligations.PackedLayoutHoldsTheLists := by
  unfold Obligations.PackedLayoutHoldsTheLists
  intro t y
  have hlen := length_packedPre_buildInverse t
  obtain ⟨before, after, hsplit, hoff⟩ := packedPre_split (buildInverse t) y
  rw [hsplit, List.length_append, List.length_append, hoff] at hlen
  refine ⟨length_packedPre_buildInverse t, length_listAt_buildInverse_le t y, by unfold packedCnt; omega,
    fun k hk => ?_⟩
  rw [hsplit, ← hoff, List.getElem?_append_right (Nat.le_add_right _ _), Nat.add_sub_cancel_left,
    List.getElem?_append_left hk]

/-! The answers of CLS and PRD. -/

/-- Under the invariants CLS answers OK from the list of the present table. -/
theorem Inv.answers_cls_ok {s : State} (h : Inv s) {b : Bank} {y : Byte} {d : Word}
    (hans : Answers (.cls b y) s .OK d) : d = annot (listAt (buildInverse (s.T.get b)) y) := by
  obtain ⟨hb, hd⟩ := answers_cls_ok_iff.mp hans
  rwa [State.listIR, h.built b hb] at hd

theorem classCode_eq_zero_iff {l : List Byte} : classCode l = 0 ↔ l.length = 0 := by
  rcases l with _ | ⟨a, _ | ⟨a', l⟩⟩ <;> simp [classCode]

theorem classCode_eq_one_iff {l : List Byte} : classCode l = 1 ↔ l.length = 1 := by
  rcases l with _ | ⟨a, _ | ⟨a', l⟩⟩ <;> simp [classCode]

theorem classCode_eq_two_iff {l : List Byte} : classCode l = 2 ↔ 2 ≤ l.length := by
  rcases l with _ | ⟨a, _ | ⟨a', l⟩⟩ <;> simp [classCode]

/-- Settles O39: the class code and the count of the list, which is the inputs that the present table maps to `y`. -/
theorem clsClassifiesThePresentTable : Obligations.ClsClassifiesThePresentTable := by
  unfold Obligations.ClsClassifiesThePresentTable
  intro s b y d hinv hans
  obtain rfl := hinv.answers_cls_ok hans
  rw [annot_classField, toNat_annot_countField (length_listAt_buildInverse_le _ y)]
  exact ⟨classCode_eq_zero_iff.trans (length_eq_zero_iff_no_input _ y),
    classCode_eq_one_iff.trans (length_eq_one_iff_one_input _ y),
    classCode_eq_two_iff.trans (two_le_length_iff_two_inputs _ y), length_listAt_buildInverse _ y⟩

theorem annot_getElem?_zero {l : List Byte} (h : 0 < l.length) : l[0]? = some ((annot l).extractLsb' 0 8) := by
  rw [annot_firstField, List.getD_eq_getElem _ _ h, List.getElem?_eq_getElem h]

theorem annot_getElem?_one {l : List Byte} (h : 1 < l.length) : l[1]? = some ((annot l).extractLsb' 8 8) := by
  rw [annot_secondField, List.getD_eq_getElem _ _ h, List.getElem?_eq_getElem h]

/-- Settles O40: the list of `y` in the bank's relation. -/
theorem enumerationIsComplete : Obligations.EnumerationIsComplete := by
  unfold Obligations.EnumerationIsComplete
  intro s b y hinv hb
  have hlist : s.listIR b y = listAt (buildInverse (s.T.get b)) y := by rw [State.listIR, hinv.built b hb]
  have hlen : (s.listIR b y).length ≤ 256 := hlist ▸ length_listAt_buildInverse_le _ y
  refine ⟨_, s.listIR b y, ⟨_, exec_cls_built hb y, rfl⟩, toNat_annot_countField hlen, annot_getElem?_zero,
    annot_getElem?_one, fun k hk _ => ?_, fun x => ?_, ?_⟩
  · have hkn : (BitVec.ofNat 8 k).toNat = k := by rw [BitVec.toNat_ofNat, Nat.mod_eq_of_lt (by omega)]
    have hans := answers_prd_getD hb (k := BitVec.ofNat 8 k) (by rwa [hkn])
    rwa [hkn, List.getD_eq_getElem _ _ hk] at hans
  · rw [hlist, mem_listAt_buildInverse, State.entryT]
  · rw [hlist]
    exact listAt_buildInverse_sorted _ y

end Sys2Proof.Machine
end

section
/-! Reachable states (R33), the fields of the STATUS word (R30), and that no answer is stale (R60, R204). -/

namespace Sys2Proof.Machine

/-! The STATUS word. -/

@[simp] theorem statusWord_istatField (s : State) : s.statusWord.extractLsb' 0 2 = s.ISTAT.code :=
  BitVec.extractLsb'_append_eq_right

@[simp] theorem statusWord_lowZeros (s : State) : s.statusWord.extractLsb' 4 4 = 0 := by
  simp (disch := decide) only [State.statusWord, BitVec.extractLsb'_append_eq_of_le, Nat.reduceSub,
    BitVec.extractLsb'_append_eq_right]
  rfl

@[simp] theorem statusWord_fcolField (s : State) : s.statusWord.extractLsb' 8 5 = s.FCOL := by
  simp (disch := decide) only [State.statusWord, BitVec.extractLsb'_append_eq_of_le, Nat.reduceSub,
    BitVec.extractLsb'_append_eq_right]

@[simp] theorem statusWord_highZeros (s : State) : s.statusWord.extractLsb' 13 19 = 0 := by
  simp (disch := decide) only [State.statusWord, BitVec.extractLsb'_append_eq_of_le, Nat.reduceSub,
    BitVec.extractLsb'_eq_self]
  rfl

theorem statusWord_bit_even (s : State) : s.statusWord.getLsbD 2 = s.TBUILT.get .even := by
  rw [State.statusWord]
  simp only [BitVec.getLsbD_append, PerBank.get]
  cases s.TBUILT.even <;> rfl

theorem statusWord_bit_odd (s : State) : s.statusWord.getLsbD 3 = s.TBUILT.get .odd := by
  rw [State.statusWord]
  simp only [BitVec.getLsbD_append, PerBank.get]
  cases s.TBUILT.odd <;> rfl

/-- Settles O19: field by field. -/
theorem statusWordFields : Obligations.StatusWordFields := by
  unfold Obligations.StatusWordFields
  refine fun s => ⟨statusWord_istatField s, ?_, statusWord_bit_even s, statusWord_bit_odd s, statusWord_lowZeros s,
    statusWord_fcolField s, statusWord_highZeros s⟩
  cases s.ISTAT <;> decide

/-! Reachable states. -/

theorem Inv.reaches {s t : State} (h : Inv s) (hr : Reaches s t) : Inv t := by
  induction hr with
  | refl => exact h
  | step e _ hs ih => exact (ih.of_sameBlock (sameBlock_port _ e _)).step hs

/-- Settles O44: the invariants hold in every state reached, and (b), (c) and (e) are what the elimination and
`build_inverse` are proved to give. -/
theorem reachableStatesAreRight : Obligations.ReachableStatesAreRight := by
  unfold Obligations.ReachableStatesAreRight
  intro s hr
  have hinv := inv_reset.reaches hr
  refine ⟨by cases s.ISTAT <;> simp, fun hv => ?_, hinv.singular, hinv.fcol, fun b hb => ?_, statusWord_lowZeros s,
    statusWord_highZeros s⟩
  · obtain ⟨hMI, hIM⟩ := isInverse_of_gf2Invert_ok (hinv.valid hv)
    exact ⟨hinv.valid hv, hIM, hMI⟩
  · have hlist : ∀ y, s.listIR b y = listAt (buildInverse (s.T.get b)) y := fun y => by
      rw [State.listIR, hinv.built b hb]
    simp only [hlist]
    exact ⟨hinv.built b hb, sum_length_listAt_buildInverse _,
      fun x y => (mem_listAt_buildInverse _ x y).trans eq_comm⟩

/-! No answer is stale. -/

theorem answers_prd_ok {s : State} {b : Bank} {y k : Byte} {d : Word} (h : Answers (.prd b y k) s .OK d) :
    s.TBUILT.get b = true ∧ ∃ x ∈ s.listIR b y, d = x.setWidth 32 := by
  cases hb : s.TBUILT.get b with
  | false => cases (h.unique ⟨_, exec_prd_notBuilt hb y k, rfl⟩).1
  | true =>
    rcases Nat.lt_or_ge k.toNat (s.listIR b y).length with hk | hk
    · exact ⟨rfl, _, List.getElem_mem hk, (h.unique ⟨_, exec_prd_built hb hk, rfl⟩).2⟩
    · cases (h.unique ⟨_, exec_prd_range hb hk, rfl⟩).1

/-- Settles O51: an OK answer is read from `INV` while VALID, or from a relation while built. -/
theorem answersAreNeverStale : Obligations.AnswersAreNeverStale := by
  unfold Obligations.AnswersAreNeverStale
  refine fun s hinv => ⟨fun r d hans => ?_, fun b y d => hinv.answers_cls_ok, fun b y k d hans => ?_⟩
  · obtain ⟨hvalid, hd⟩ := answers_ird_ok hans
    exact ⟨s.INV, isInverse_of_gf2Invert_ok (hinv.valid hvalid), hd⟩
  · obtain ⟨hb, x, hx, hd⟩ := answers_prd_ok hans
    rw [State.listIR, hinv.built b hb, mem_listAt_buildInverse] at hx
    exact ⟨x, hd, hx⟩

end Sys2Proof.Machine
end

section
/-! The laws of the product and of `apply` (R104), the inverse (R105), and what the elimination returns (R107 to R109),
whatever the pivots and the order of the row additions (R115). For every dimension. -/

namespace Sys2Proof.Machine

variable {n : Nat}

/-! The product and `apply` (R104). -/

theorem entry_matMul (X Y : BitMatrix n) (i j : Fin n) :
    entry (matMul X Y) i j = xorOver fun k => entry X i k && entry Y k j := by
  rw [entry, matMul_row, selectRows_getLsbD]
  rfl

@[simp] theorem applyMatrix_identityMatrix (v : BitVec n) : applyMatrix (identityMatrix n) v = v :=
  vecZMod_inj (by rw [vecZMod_applyMatrix, toZMod_identityMatrix, Matrix.one_mulVec])

/-- Settles O25: row by row, and over `ZMod 2` for the laws of `apply`. -/
theorem productAndApplyLaws : Obligations.ProductAndApplyLaws := by
  unfold Obligations.ProductAndApplyLaws
  exact fun n X Y v => ⟨entry_matMul X Y, matMul_row X Y, applyMatrix_getLsbD X v, applyMatrix_matMul X Y v,
    applyMatrix_identityMatrix v⟩

/-! The inverse (R105). -/

theorem IsInverse.unique {X Y Z : BitMatrix n} (hY : IsInverse X Y) (hZ : IsInverse X Z) : Y = Z := by
  obtain ⟨-, hYX⟩ := hY
  obtain ⟨hXZ, -⟩ := hZ
  calc Y = matMul Y (matMul X Z) := by rw [hXZ, matMul_identityMatrix]
    _ = matMul (matMul Y X) Z := (matMul_assoc Y X Z).symm
    _ = Z := by rw [hYX, identityMatrix_matMul]

/-- Settles O26: an inverse from the left is one from the right. -/
theorem inverseIsUnique : Obligations.InverseIsUnique := by
  unfold Obligations.InverseIsUnique
  exact fun n X Y Z => ⟨IsInverse.unique, isInverse_of_matMul_eq, fun h => (isInverse_of_matMul_eq h).symm⟩

/-! The loop invariant (R107). -/

theorem mem_take_finRange {c : Nat} {j : Fin n} (hj : j.val < c) : j ∈ (List.finRange n).take c :=
  List.mem_take_iff_getElem.mpr ⟨j.val, by simp [hj], by simp⟩

/-- Settles O27: the invariant over the columns before `c`. -/
theorem eliminationLoopInvariant : Obligations.EliminationLoopInvariant := by
  unfold Obligations.EliminationLoopInvariant
  intro n X c B _ hok
  have hsorted : ((List.finRange n).take c).Pairwise (· < ·) := (List.pairwise_lt_finRange n).take
  obtain ⟨hprod, hcols, hA⟩ := (eliminationInvariant_start X).columnSteps_ok hsorted hok
  refine ⟨hprod, fun i j hj => ?_, hA⟩
  rw [hcols j (mem_take_finRange hj) i, decide_eq_true_iff]

/-! What the elimination returns (R108, R109). -/

/-- The elimination of an invertible matrix returns its inverse. -/
theorem gf2Invert_eq_ok_iff {X A : BitMatrix n} : gf2Invert X = .ok A ↔ IsInverse X A := by
  refine ⟨isInverse_of_gf2Invert_ok, fun hA => ?_⟩
  cases h : gf2Invert X with
  | ok A' => rw [(isInverse_of_gf2Invert_ok h).unique hA]
  | singular c => exact absurd ⟨A, hA⟩ (singular_iff_exists_gf2Invert_singular.mpr ⟨c, h⟩)

theorem IsInverse.applyMatrix_applyMatrix {X A : BitMatrix n} (h : IsInverse X A) (v : BitVec n) :
    applyMatrix X (applyMatrix A v) = v := by
  rw [← applyMatrix_matMul, h.1, applyMatrix_identityMatrix]

/-- Settles O28: the matrix returned is the inverse, and the inverse of the inverse is the matrix. -/
theorem inverterIsRight : Obligations.InverterIsRight := by
  unfold Obligations.InverterIsRight
  refine ⟨fun n X A h => ?_, fun n => gf2Invert_eq_ok_iff.mpr (isInverse_of_matMul_eq (matMul_identityMatrix _))⟩
  have hinv := gf2Invert_eq_ok_iff.mp h
  exact ⟨hinv.2, hinv.1, hinv.symm.applyMatrix_applyMatrix, hinv.applyMatrix_applyMatrix,
    gf2Invert_eq_ok_iff.mpr hinv.symm⟩

/-- No column before the next one is a sum of columns before it: in `L = A * X` it is a column of the identity. -/
theorem EliminationInvariant.not_columnIsSumBefore {X : BitMatrix n} {done : List (Fin n)} {B : Buffers n} {c : Fin n}
    (h : EliminationInvariant X done B) (hdone : ∀ j ≤ c, j ∈ done) : ¬ ColumnIsSumBefore X c := by
  intro hX
  have hL : ColumnIsSumBefore B.L c := h.product ▸ hX.matMul_left B.A
  exact not_columnIsSumBefore_of_unit_row (fun j hj => h.columns j (hdone j hj) c) hL

/-- The column `c` is a sum of columns before it, and no column before it is (R109). -/
def IsLeastDependentColumn (X : BitMatrix n) (c : Fin n) : Prop :=
  ColumnIsSumBefore X c ∧ ∀ c' < c, ¬ ColumnIsSumBefore X c'

theorem IsLeastDependentColumn.unique {X : BitMatrix n} {c c' : Fin n} (h : IsLeastDependentColumn X c)
    (h' : IsLeastDependentColumn X c') : c = c' := by
  obtain ⟨hc, hleast⟩ := h
  obtain ⟨hc', hleast'⟩ := h'
  rcases lt_trichotomy c c' with hlt | heq | hlt
  · exact absurd hc (hleast' c hlt)
  · exact heq
  · exact absurd hc' (hleast c' hlt)

/-- Where the invariant holds of the columns before `c` and no row is eligible for `c`, the elimination fails right. -/
theorem EliminationInvariant.isLeastDependentColumn {X : BitMatrix n} {done cs : List (Fin n)} {B : Buffers n}
    {c : Fin n} (h : EliminationInvariant X done B) (hsplit : List.finRange n = done ++ c :: cs)
    (hnone : ∀ r, c ≤ r → entry B.L r c = false) : IsLeastDependentColumn X c := by
  have hmem : ∀ j < c, j ∈ done := fun j hj => mem_done_of_lt hsplit hj
  have hL := columnIsSumBefore_of_no_pivot (fun j hj => h.columns j (hmem j hj)) hnone
  obtain ⟨Y, -, hYA⟩ := h.invertible
  have hX : matMul Y B.L = X := by rw [← h.product, ← matMul_assoc, hYA, identityMatrix_matMul]
  exact ⟨hX ▸ hL.matMul_left Y, fun c' hc' => h.not_columnIsSumBefore fun j hj => hmem j (hj.trans_lt hc')⟩

theorem gf2Invert_singular_isLeastDependentColumn {X : BitMatrix n} {c : Fin n} (h : gf2Invert X = .singular c) :
    IsLeastDependentColumn X c := by
  obtain ⟨done, cs, B, hsplit, hB, hnone⟩ := (eliminationInvariant_start X).columnSteps_error
    (List.pairwise_lt_finRange n) (gf2Invert_singular_iff.mp h)
  exact hB.isLeastDependentColumn hsplit (pivotRow_none hnone)

/-- The elimination fails at a column exactly when it is the least dependent one. -/
theorem gf2Invert_eq_singular_iff {X : BitMatrix n} {c : Fin n} :
    gf2Invert X = .singular c ↔ IsLeastDependentColumn X c := by
  refine ⟨gf2Invert_singular_isLeastDependentColumn, fun hc => ?_⟩
  obtain ⟨c', h⟩ := singular_iff_exists_gf2Invert_singular.mp (singular_of_columnIsSumBefore hc.1)
  rw [h, hc.unique (gf2Invert_singular_isLeastDependentColumn h)]

/-- A row of zeros stays one in every product, and the identity has none. -/
theorem singular_of_zero_row {X : BitMatrix n} {r : Fin n} (h : X[r] = 0) : Singular X := by
  rintro ⟨Y, hXY, -⟩
  have hrow : entry (matMul X Y) r r = false := by
    rw [entry_matMul]
    simp [entry, h]
  rw [hXY, entry_identityMatrix, decide_eq_true rfl] at hrow
  cases hrow

theorem identityMatrix_set_row (r i : Fin n) :
    ((identityMatrix n).set r 0)[i] = if i = r then 0 else (identityMatrix n)[i] := by
  simp [Vector.getElem_set, Fin.ext_iff, eq_comm]

theorem entry_identityMatrix_set (r i j : Fin n) :
    entry ((identityMatrix n).set r 0) i j = decide (i ≠ r ∧ i = j) := by
  rw [entry, identityMatrix_set_row]
  by_cases h : i = r
  · simp [h]
  · rw [if_neg h, ← entry, entry_identityMatrix]
    simp [h]

/-- Column `r` is zero, the empty sum, and each column before it is that of the identity. -/
theorem isLeastDependentColumn_identityMatrix_set (r : Fin n) :
    IsLeastDependentColumn ((identityMatrix n).set r 0) r := by
  refine ⟨⟨0#n, by simp, fun i => ?_⟩, fun c hc => not_columnIsSumBefore_of_unit_row fun j _ => ?_⟩
  · rw [entry_identityMatrix_set, BitVec.and_zero, parity_zero]
    simp
  · rw [entry_identityMatrix_set]
    simp [hc.ne]

/-- Settles O29: the matrix is invertible or has a least dependent column. -/
theorem failureIsExact : Obligations.FailureIsExact := by
  unfold Obligations.FailureIsExact
  exact ⟨fun n X => ⟨singular_iff_exists_gf2Invert_singular.symm, exists_congr fun A => gf2Invert_eq_ok_iff⟩,
    fun n X c => gf2Invert_eq_singular_iff.mp,
    fun n X r h => singular_iff_exists_gf2Invert_singular.mp (singular_of_zero_row h),
    fun n r => gf2Invert_eq_singular_iff.mpr (isLeastDependentColumn_identityMatrix_set r)⟩

/-! Any order and any pivot (R115). -/

theorem foldl_addPivotRow_eq_eliminate (c : Fin n) (B : Buffers n) {rs : List (Fin n)}
    (h : rs.Perm (List.finRange n)) : rs.foldl (addPivotRow c) B = eliminate c B := by
  have hrows := foldl_addPivotRow_rows c rs (h.nodup_iff.mpr (List.nodup_finRange n)) B
  have hmem : ∀ i, i ∈ rs := fun i => h.mem_iff.mpr (List.mem_finRange i)
  simp only [hmem, true_and] at hrows
  have hL := bitMatrix_ext fun i => (hrows i).1.trans (eliminate_L c B i).symm
  have hA := bitMatrix_ext fun i => (hrows i).2.trans (eliminate_A c B i).symm
  exact congrArg₂ Buffers.mk hL hA

/-- A swap of two rows at or after the next column keeps the invariant. -/
theorem EliminationInvariant.swapBoth {X : BitMatrix n} {done : List (Fin n)} {B : Buffers n} {c p : Fin n}
    (h : EliminationInvariant X done B) (hdone : ∀ j ∈ done, j < c) (hcp : c ≤ p) :
    EliminationInvariant X done (swapBoth B c p) where
  product := ((isRowOperation_swapRows c p).comm_matMul B.A X).trans (congrArg (swapRows · c p) h.product)
  columns j hj := entry_swapRows_of_unit hcp (hdone j hj) (h.columns j hj)
  invertible := (isRowOperation_swapRows c p).invertible h.invertible

theorem swapBoth_self (B : Buffers n) (c : Fin n) : swapBoth B c c = B := by
  have hswap : ∀ X : BitMatrix n, swapRows X c c = X := fun X => bitMatrix_ext fun r => by
    rw [swapRows_row]
    split_ifs with h
    · rw [h]
    · rfl
  rw [Machine.swapBoth, hswap, hswap]

/-- Row `c` is the first one that the search looks at. -/
theorem pivotRow_of_entry {L : BitMatrix n} {c : Fin n} (h : entry L c c = true) : pivotRow L c = some c := by
  cases hp : pivotRow L c with
  | none => rw [pivotRow_none hp c le_rfl] at h; cases h
  | some p =>
    obtain ⟨hcp, -, hfirst⟩ := pivotRow_some hp
    rcases hcp.lt_or_eq with hlt | rfl
    · rw [hfirst c le_rfl hlt] at h; cases h
    · rfl

/-- A column step with any eligible pivot is the column step of the search after the swap. -/
theorem EliminationInvariant.eligibleStep {X : BitMatrix n} {done : List (Fin n)} {B : Buffers n} {c p : Fin n}
    (h : EliminationInvariant X done B) (hdone : ∀ j ∈ done, j < c) (hcp : c ≤ p) (hp : entry B.L p c = true) :
    EliminationInvariant X (done ++ [c]) (eliminate c (Machine.swapBoth B c p)) := by
  have hpivot : pivotRow (Machine.swapBoth B c p).L c = some c :=
    pivotRow_of_entry ((entry_swapRows_pivot B.L c p).trans hp)
  have hstep := (h.swapBoth hdone hcp).columnStep hdone hpivot
  rwa [swapBoth_self] at hstep

/-- After the last column `A` is the inverse. -/
theorem EliminationInvariant.isInverse {X : BitMatrix n} {B : Buffers n}
    (h : EliminationInvariant X (List.finRange n) B) : IsInverse X B.A := by
  have hL : B.L = identityMatrix n := toZMod_inj (by
    funext i j
    rw [toZMod, toZMod, h.columns j (List.mem_finRange j) i, entry_identityMatrix])
  exact (isInverse_of_matMul_eq (h.product.trans hL)).symm

/-- An elimination of `X` ends right: in its inverse, or at its least dependent column. -/
def EndsRight (X : BitMatrix n) : Except (Fin n) (Buffers n) → Prop
  | .ok B => IsInverse X B.A
  | .error c => IsLeastDependentColumn X c

/-- With any eligible pivots, by induction over the columns still to do. -/
theorem EliminationInvariant.endsRight {X : BitMatrix n} {done cs : List (Fin n)} {B : Buffers n}
    {res : Except (Fin n) (Buffers n)} (h : EliminationInvariant X done B) (hs : List.finRange n = done ++ cs)
    (hrun : AnyPivotRun cs B res) : EndsRight X res := by
  induction hrun generalizing done with
  | done B =>
    rw [List.append_nil] at hs
    exact (hs ▸ h).isInverse
  | fail hnone => exact h.isLeastDependentColumn hs hnone
  | pivot hcp hp _ ih =>
    have hsorted := hs ▸ List.pairwise_lt_finRange n
    exact ih (h.eligibleStep (fun _ => lt_of_mem_done hsorted) hcp hp) (hs.trans (List.append_cons ..))

theorem endsRight_of_anyPivotRun {X : BitMatrix n} {res : Except (Fin n) (Buffers n)}
    (h : AnyPivotRun (List.finRange n) (startBuffers X) res) : EndsRight X res :=
  (eliminationInvariant_start X).endsRight (List.nil_append _).symm h

/-- Settles O30: the order does not show in the rows, and every elimination ends in the inverse or at the least
dependent column. -/
theorem pivotAndOrderDoNotMatter : Obligations.PivotAndOrderDoNotMatter := by
  unfold Obligations.PivotAndOrderDoNotMatter
  exact ⟨fun n c B rs => foldl_addPivotRow_eq_eliminate c B,
    fun n X B hrun => gf2Invert_eq_ok_iff.mpr (endsRight_of_anyPivotRun hrun),
    fun n X c hrun => gf2Invert_eq_singular_iff.mpr (endsRight_of_anyPivotRun hrun)⟩

end Sys2Proof.Machine
end

section
/-! The assembler's words and ranges (R83, R84), and the boot sequence (R203). -/

namespace Sys2Proof.Machine

/-! Ranges. -/

@[simp] theorem rowInRange_iff (n : Nat) : rowInRange n = true ↔ n ≤ 31 := by
  rw [rowInRange, decide_eq_true_iff]
  exact Nat.lt_succ_iff

@[simp] theorem byteInRange_iff (n : Nat) : byteInRange n = true ↔ n ≤ 255 := by
  rw [byteInRange, decide_eq_true_iff]
  exact Nat.lt_succ_iff

@[simp] theorem wordInRange_iff (n : Nat) : wordInRange n = true ↔ n < 2 ^ 32 := by
  rw [wordInRange, decide_eq_true_iff]

theorem mload_wellFormed_iff (ws : List Nat) :
    (Asm.mload ws).wellFormed = true ↔ ws.length = 32 ∧ ∀ w ∈ ws, w < 2 ^ 32 := by
  simp [Asm.wellFormed, rowsWellFormed]

theorem tload_wellFormed_iff (b : Bank) (vs : List Nat) :
    (Asm.tload b vs).wellFormed = true ↔ vs.length = 256 ∧ ∀ v ∈ vs, v ≤ 255 := by
  simp [Asm.wellFormed, entriesWellFormed]

/-! Words. -/

theorem encode_of_rowWord {i : Instr} {op : BitVec 8} {r : Row} (h : encodeWord i = packWord op 0 (idxOfRow r) 0) :
    encode i = ⟨(op.setWidth 32 <<< 24) ||| (BitVec.ofNat 32 r.val <<< 8), encodeOperand i⟩ := by
  rw [encode, h, rowWord_eq_packWord]

theorem asmRow_val {n : Nat} (h : n ≤ 31) : (asmRow n).val = n := Nat.mod_eq_of_lt (Nat.lt_succ_of_le h)

theorem bankBits_eq (b : Bank) : bankBits b = (bitOfBank b).setWidth 32 <<< 16 := by cases b <;> rfl

theorem asmByte_setWidth {n : Nat} (h : n ≤ 255) : (asmByte n).setWidth 32 = BitVec.ofNat 32 n :=
  BitVec.setWidth_ofNat_of_le_of_lt (by decide) (Nat.lt_succ_of_le h)

/-- The word of a line with a bank and two bytes. -/
theorem packWord_asmBytes (op : BitVec 8) (b : Bank) {x v : Nat} (hx : x ≤ 255) (hv : v ≤ 255) :
    packWord op (bitOfBank b) (asmByte x) (asmByte v) =
      (op.setWidth 32 <<< 24) ||| bankBits b ||| (BitVec.ofNat 32 x <<< 8) ||| BitVec.ofNat 32 v := by
  rw [← tableWord_eq_packWord, bankBits_eq, asmByte_setWidth hx, asmByte_setWidth hv]

theorem packWord_asmByte (op : BitVec 8) (b : Bank) {x : Nat} (hx : x ≤ 255) :
    packWord op (bitOfBank b) (asmByte x) 0 =
      (op.setWidth 32 <<< 24) ||| bankBits b ||| (BitVec.ofNat 32 x <<< 8) := by
  rw [← indexWord_eq_packWord, bankBits_eq, asmByte_setWidth hx]

/-! Lines. -/

theorem assemble_eq_ite {a : Asm} {p : Prop} [Decidable p] {cs : List Command} (hwf : a.wellFormed = true ↔ p)
    (hcs : p → asmCommands a = cs) : assemble a = if p then some cs else none := by
  unfold assemble
  by_cases hp : p
  · rw [if_pos hp, if_pos (hwf.mpr hp), hcs hp]
  · rw [if_neg hp, if_neg (mt hwf.mp hp)]

/-- A line with a row number, and perhaps an operand word. -/
theorem assemble_rowLine {a : Asm} {i : Instr} {n : Nat} {p : Prop} [Decidable p] (op : BitVec 8)
    (hwf : a.wellFormed = true ↔ p) (hn : p → n ≤ 31) (hcs : asmCommands a = [encode i])
    (hi : encodeWord i = packWord op 0 (idxOfRow (asmRow n)) 0) :
    assemble a =
      if p then some [⟨(op.setWidth 32 <<< 24) ||| (BitVec.ofNat 32 n <<< 8), encodeOperand i⟩] else none :=
  assemble_eq_ite hwf fun h => by rw [hcs, encode_of_rowWord hi, asmRow_val (hn h)]

theorem assemble_mwr (n w : Nat) : assemble (.mwr n w) =
    if n ≤ 31 ∧ w < 2 ^ 32 then some [⟨0x10000000#32 ||| (BitVec.ofNat 32 n <<< 8), BitVec.ofNat 32 w⟩] else none :=
  assemble_rowLine 0x10 (i := .mwr (asmRow n) (asmWord w)) (by simp [Asm.wellFormed]) And.left rfl rfl

theorem assemble_mrd (n : Nat) : assemble (.mrd n) =
    if n ≤ 31 then some [⟨0x11000000#32 ||| (BitVec.ofNat 32 n <<< 8), 0⟩] else none :=
  assemble_rowLine 0x11 (i := .mrd (asmRow n)) (by simp [Asm.wellFormed]) id rfl rfl

theorem assemble_ird (n : Nat) : assemble (.ird n) =
    if n ≤ 31 then some [⟨0x13000000#32 ||| (BitVec.ofNat 32 n <<< 8), 0⟩] else none :=
  assemble_rowLine 0x13 (i := .ird (asmRow n)) (by simp [Asm.wellFormed]) id rfl rfl

theorem assemble_twr (b : Bank) (x v : Nat) : assemble (.twr b x v) =
    if x ≤ 255 ∧ v ≤ 255 then
      some [⟨0x20000000#32 ||| bankBits b ||| (BitVec.ofNat 32 x <<< 8) ||| BitVec.ofNat 32 v, 0⟩]
    else none :=
  assemble_eq_ite (by simp [Asm.wellFormed]) fun h =>
    congrArg (fun cw => [Command.mk cw 0]) (packWord_asmBytes 0x20 b h.1 h.2)

theorem assemble_trd (b : Bank) (x : Nat) : assemble (.trd b x) =
    if x ≤ 255 then some [⟨0x21000000#32 ||| bankBits b ||| (BitVec.ofNat 32 x <<< 8), 0⟩] else none :=
  assemble_eq_ite (by simp [Asm.wellFormed]) fun h =>
    congrArg (fun cw => [Command.mk cw 0]) (packWord_asmByte 0x21 b h)

theorem assemble_cls (b : Bank) (y : Nat) : assemble (.cls b y) =
    if y ≤ 255 then some [⟨0x23000000#32 ||| bankBits b ||| (BitVec.ofNat 32 y <<< 8), 0⟩] else none :=
  assemble_eq_ite (by simp [Asm.wellFormed]) fun h =>
    congrArg (fun cw => [Command.mk cw 0]) (packWord_asmByte 0x23 b h)

theorem assemble_prd (b : Bank) (y k : Nat) : assemble (.prd b y k) =
    if y ≤ 255 ∧ k ≤ 255 then
      some [⟨0x24000000#32 ||| bankBits b ||| (BitVec.ofNat 32 y <<< 8) ||| BitVec.ofNat 32 k, 0⟩]
    else none :=
  assemble_eq_ite (by simp [Asm.wellFormed]) fun h =>
    congrArg (fun cw => [Command.mk cw 0]) (packWord_asmBytes 0x24 b h.1 h.2)

theorem assemble_word (cw wd : Nat) : assemble (.word cw wd) =
    if cw < 2 ^ 32 ∧ wd < 2 ^ 32 then some [⟨BitVec.ofNat 32 cw, BitVec.ofNat 32 wd⟩] else none :=
  assemble_eq_ite (by simp [Asm.wellFormed]) fun _ => rfl

theorem assemble_mload (ws : List Nat) : assemble (.mload ws) =
    if ws.length = 32 ∧ ∀ w ∈ ws, w < 2 ^ 32 then
      some ((List.range 32).map fun n =>
        ⟨0x10000000#32 ||| (BitVec.ofNat 32 n <<< 8), BitVec.ofNat 32 (ws.getD n 0)⟩)
    else none := by
  refine assemble_eq_ite (mload_wellFormed_iff ws) fun h => ?_
  rw [asmCommands_mload ((mload_wellFormed_iff ws).mpr h), ← List.map_coe_finRange_eq_range, List.map_map]
  exact List.map_congr_left fun r _ => encode_of_rowWord (op := 0x10) (r := r) rfl

theorem getD_le_of_forall_mem {vs : List Nat} {m : Nat} (h : ∀ v ∈ vs, v ≤ m) (k : Nat) : vs.getD k 0 ≤ m := by
  rcases Nat.lt_or_ge k vs.length with hk | hk
  · rw [List.getD_eq_getElem _ _ hk]
    exact h _ (List.getElem_mem hk)
  · rw [List.getD_eq_default _ _ hk]
    exact Nat.zero_le m

theorem assemble_tload (b : Bank) (vs : List Nat) : assemble (.tload b vs) =
    if vs.length = 256 ∧ ∀ v ∈ vs, v ≤ 255 then
      some ((List.range 256).map fun x =>
        ⟨0x20000000#32 ||| bankBits b ||| (BitVec.ofNat 32 x <<< 8) ||| BitVec.ofNat 32 (vs.getD x 0), 0⟩)
    else none := by
  refine assemble_eq_ite (tload_wellFormed_iff b vs) fun h => ?_
  rw [asmCommands_tload ((tload_wellFormed_iff b vs).mpr h)]
  refine List.map_congr_left fun x hx => ?_
  have hx : x ≤ 255 := Nat.lt_succ_iff.mp (List.mem_range.mp hx)
  exact congrArg (Command.mk · 0) (packWord_asmBytes 0x20 b hx (getD_le_of_forall_mem h.2 x))

/-- A line that goes on from another with more commands, under the same ranges. -/
theorem assemble_append {a a' : Asm} {cs : List Command} (hwf : a'.wellFormed = a.wellFormed)
    (hcs : asmCommands a' = asmCommands a ++ cs) : assemble a' = (assemble a).map (· ++ cs) := by
  unfold assemble
  rw [hwf, hcs]
  split_ifs <;> rfl

theorem encode_tbld (b : Bank) : encode (.tbld b) = ⟨0x22000000#32 ||| bankBits b, 0⟩ := by cases b <;> rfl

theorem assemble_invert (ws : List Nat) :
    assemble (.invert ws) = (assemble (.mload ws)).map (· ++ [⟨0x12000000, 0⟩]) :=
  assemble_append rfl List.map_append

theorem assemble_build (b : Bank) (vs : List Nat) : assemble (.build b vs) =
    (assemble (.tload b vs)).map (· ++ [⟨0x22000000#32 ||| bankBits b, 0⟩]) :=
  encode_tbld b ▸ assemble_append rfl List.map_append

/-- The command words that come from a command and not from a raw word match the command's row. -/
theorem legalWord_encode (i : Instr) : legalWord (encode i).cw = true := by
  obtain ⟨row, hrow, -, hm⟩ := encodeWord_matches_row i
  exact List.any_eq_true.mpr ⟨row, hrow, beq_iff_eq.mpr hm⟩

theorem asmCommands_eq_map {a : Asm} (h : ∀ cw wd, a ≠ .word cw wd) : asmCommands a = (asmInstrs a).map encode := by
  unfold asmCommands
  split
  · exact absurd rfl (h _ _)
  · rfl

theorem legalWord_of_assemble {a : Asm} {cs : List Command} (ha : ∀ cw wd, a ≠ .word cw wd)
    (h : assemble a = some cs) {c : Command} (hc : c ∈ cs) : legalWord c.cw = true := by
  unfold assemble at h
  split_ifs at h
  cases h
  rw [asmCommands_eq_map ha] at hc
  obtain ⟨i, -, rfl⟩ := List.mem_map.mp hc
  exact legalWord_encode i

/-- Settles O55: form by form; the words of commands are legal. -/
theorem assemblerEmitsLegalWords : Obligations.AssemblerEmitsLegalWords := by
  unfold Obligations.AssemblerEmitsLegalWords
  exact ⟨rfl, rfl, rfl, rfl, assemble_mwr, assemble_mrd, assemble_ird, assemble_twr, assemble_trd,
    fun b => congrArg (fun c => some [c]) (encode_tbld b), assemble_cls, assemble_prd, assemble_word, assemble_mload,
    assemble_tload, assemble_invert, assemble_build, fun a cs ha h c hc => legalWord_of_assemble ha h hc⟩

/-! The boot sequence (R203). -/

/-- The numbers of a matrix's rows, as `mload` and `invert` take them. -/
def rowNumbers (X : BitMatrix 32) : List Nat := X.toList.map BitVec.toNat

theorem mload_rowNumbers_wellFormed (X : BitMatrix 32) : (Asm.mload (rowNumbers X)).wellFormed = true := by
  refine (mload_wellFormed_iff _).mpr ⟨by simp [rowNumbers], fun w hw => ?_⟩
  obtain ⟨v, -, rfl⟩ := List.mem_map.mp hw
  exact v.isLt

theorem loadedRow_rowNumbers (X : BitMatrix 32) (r : Row) : loadedRow (rowNumbers X) r = X[r] := by
  simp [loadedRow, rowNumbers]

/-- Running `invert` is MINV in a state whose source matrix is the one given. -/
theorem exec_minv_of_runs_invert {s t : State} {X : BitMatrix 32}
    (h : Runs s (asmCommands (.invert (rowNumbers X))) t) :
    ∃ u : State, u.M = X ∧ exec .minv u = .next t := by
  rw [show asmCommands (.invert (rowNumbers X)) = asmCommands (.mload (rowNumbers X)) ++ [Instr.minv].map encode from
    List.map_append] at h
  obtain ⟨u, hload, hminv⟩ := runs_append.mp h
  obtain ⟨u', hload', hM, -⟩ := mload_loads (mload_rowNumbers_wellFormed X) (.refl _) s
  obtain rfl := runs_deterministic hload' hload
  obtain ⟨t', ht', hnil⟩ := runs_encode_cons.mp hminv
  refine ⟨u', bitMatrix_ext fun r => (hM r).trans (loadedRow_rowNumbers X r), ?_⟩
  rwa [(runs_nil t' t).mp hnil]

/-- Settles O57: MINV on the matrix loaded, by what the elimination returns. -/
theorem bootSequenceYieldsTheInverse : Obligations.BootSequenceYieldsTheInverse := by
  unfold Obligations.BootSequenceYieldsTheInverse
  intro s t X h
  obtain ⟨u, rfl, ht⟩ := exec_minv_of_runs_invert h
  refine ⟨fun ⟨A, hA⟩ => ?_, fun hsing => ?_⟩
  · cases next_injective ((exec_minv_ok (gf2Invert_eq_ok_iff.mpr hA)).symm.trans ht)
    exact ⟨rfl, A, hA, fun r => ⟨_, exec_ird_valid rfl r, rfl⟩⟩
  · obtain ⟨c, hc⟩ := singular_iff_exists_gf2Invert_singular.mp hsing
    cases next_injective ((exec_minv_singular hc).symm.trans ht)
    exact ⟨_, rfl, fun r => ⟨_, exec_ird_singular rfl r, rfl⟩⟩

end Sys2Proof.Machine
end
